-- ==== Sys2Proof/Word.lean ====
section
/-! DEFINITION. The two word types of the hardware (spec/00_scope.md rule R7): the data word and the address.

Bit `i` of a word is `w.getLsbD i`; bit 0 is the least significant one (rule R8).  Values are unsigned
(spec/10_state.md rule R33).  Arithmetic on them wraps at their width, which is rule R9's `{+}`. -/

namespace Sys2Proof

/-- Word8: "always exactly 8 bits", unsigned (rules R7, R12). -/
abbrev Word8 := BitVec 8

/-- Addr4: a 4-bit unsigned value, range 0 to 15 (rules R7, R12). -/
abbrev Addr4 := BitVec 4

/-- Half of an instruction word: the opcode field, or the low field an instruction ignores (rule R49). -/
abbrev Nibble := BitVec 4

end Sys2Proof
end

