-- ==== Sys2Proof/Config.lean ====
section
/-! DEFINITION. What is fixed for the machine (spec/00_scope.md rule R7).

There is no free value here.  The spec leaves one thing open, the program image (spec/92_eei_decisions.md,
OPEN parameters), and the image is the contents of `State.mem`, which every claim quantifies over.
Rule R14: "Every value a rule computes is total". -/

namespace Sys2Proof.Config

/-- Memory holds 16 words (rule R7), one for each `Addr4`. -/
def memWords : Nat := 16

/-- What an address no cell lists reads as.  Rule R34: memory is "padded with zero words if the image is
shorter than 16 lines", so an address the image does not reach holds 0. -/
def unlistedWord : Word8 := 0

/-- At most the first 16 significant source lines are assembled (spec/30_encoding.md rule R56). -/
def maxSourceLines : Nat := 16

/-- A line of the binary image is exactly 8 characters (rule R69). -/
def imageLineChars : Nat := 8

end Sys2Proof.Config
end

