-- ==== Sys2Proof/Machine/Flags.lean ====
section
/-! DEFINITION. The ALU and its carry.

The core has no status flags (spec/10_state.md rule R24).  The one value other machines would keep in a flag is
the ALU's final carry; it is computed and discarded (spec/40_alu.md rule R77), so nothing here writes State. -/

namespace Sys2Proof.Machine

/-- The sum bit of a full adder (rule R74). -/
def fullAdderSum (a b c : Bool) : Bool := a ^^ b ^^ c

/-- The carry out of a full adder (rule R74). -/
def fullAdderCarry (a b c : Bool) : Bool := (a && b) || (a && c) || (b && c)

/-- The word the ALU adds to `a`: `~b` when it subtracts (rule R74). -/
def aluOperand (b : Word8) (su : Bool) : Word8 := if su then ~~~b else b

/-- The carry into stage `i` of the ripple chain; the carry into bit 0 is `su` (rule R74). -/
def rippleCarry (a bb : Word8) (su : Bool) : Nat → Bool
  | 0 => su
  | i + 1 => fullAdderCarry (a.getLsbD i) (bb.getLsbD i) (rippleCarry a bb su i)

/-- The low `n` sum bits of the ripple chain, bit `n - 1` on top (rule R74). -/
def rippleSum (a bb : Word8) (su : Bool) : (n : Nat) → BitVec n
  | 0 => 0
  | i + 1 =>
    BitVec.cons (fullAdderSum (a.getLsbD i) (bb.getLsbD i) (rippleCarry a bb su i)) (rippleSum a bb su i)

/-- `ALU(a, b, su)`: the sum word of the 8-stage ripple-carry chain (rules R73, R74). -/
def alu (a b : Word8) (su : Bool) : Word8 := rippleSum a (aluOperand b su) su 8

/-- `cout`: the carry out of bit 7.  Internal; no rule of the core reads it (rule R77, decision D9). -/
def aluCarry (a b : Word8) (su : Bool) : Bool := rippleCarry a (aluOperand b su) su 8

end Sys2Proof.Machine
end

