-- ==== Sys2Proof/Syntax.lean ====
section
/-! DEFINITION. The instructions of the core, one constructor per row of spec/opcode_table.json.

Every instruction is one 8-bit word of one format, `op` in bits 7 to 4 and a 4-bit low field in bits 3 to 0
(spec/30_encoding.md rules R48, R49).  LDA, ADD and SUB read the low field as the operand address.  OUT, HLT
and the eleven undefined opcodes ignore it (rules R51, R54); the constructor still carries it, so that a
word and its instruction determine each other. -/

namespace Sys2Proof

/-- An instruction of the core (rule R50's opcode map). -/
inductive Instr where
  /-- LDA, opcode 0000: load the accumulator (rule R96). -/
  | lda (addr : Addr4)
  /-- ADD, opcode 0001: add a memory word to the accumulator (rule R97). -/
  | add (addr : Addr4)
  /-- SUB, opcode 0010: subtract a memory word from the accumulator (rule R98). -/
  | sub (addr : Addr4)
  /-- Undefined opcode 0011: a no-operation of six phases (rule R109). -/
  | undef0011 (low : Nibble)
  /-- Undefined opcode 0100: a no-operation of six phases (rule R109). -/
  | undef0100 (low : Nibble)
  /-- Undefined opcode 0101: a no-operation of six phases (rule R109). -/
  | undef0101 (low : Nibble)
  /-- Undefined opcode 0110: a no-operation of six phases (rule R109). -/
  | undef0110 (low : Nibble)
  /-- Undefined opcode 0111: a no-operation of six phases (rule R109). -/
  | undef0111 (low : Nibble)
  /-- Undefined opcode 1000: a no-operation of six phases (rule R109). -/
  | undef1000 (low : Nibble)
  /-- Undefined opcode 1001: a no-operation of six phases (rule R109). -/
  | undef1001 (low : Nibble)
  /-- Undefined opcode 1010: a no-operation of six phases (rule R109). -/
  | undef1010 (low : Nibble)
  /-- Undefined opcode 1011: a no-operation of six phases (rule R109). -/
  | undef1011 (low : Nibble)
  /-- Undefined opcode 1100: a no-operation of six phases (rule R109). -/
  | undef1100 (low : Nibble)
  /-- Undefined opcode 1101: a no-operation of six phases (rule R109). -/
  | undef1101 (low : Nibble)
  /-- OUT, opcode 1110: output the accumulator (rule R99). -/
  | out (low : Nibble)
  /-- HLT, opcode 1111: halt (rule R105). -/
  | hlt (low : Nibble)
  deriving DecidableEq, Repr

end Sys2Proof
end

