-- ==== Sys2Proof/WellFormed.lean ====
section
/-! DEFINITION. The checks that stand before the machine.

An instruction term has nothing to check: its operand is an `Addr4` or a nibble by type, every 8-bit word
decodes, and no encoding is reserved (spec/00_scope.md rule R14, spec/30_encoding.md rules R52, R53).  What the
spec does check is what may enter memory: which words an assembler emits (rule R72), and the form of a
binary image (rules R69, R70; spec/92_eei_decisions.md D14). -/

namespace Sys2Proof

/-- Whether the assembler has a source form that emits this very word.  Rule R54: OUT and HLT are always
written with a zero low nibble.  Rule R72: "No encoder output lands in the undefined opcode range". -/
def Instr.assembles : Instr → Bool
  | .lda _ => true
  | .add _ => true
  | .sub _ => true
  | .undef0011 _ => false
  | .undef0100 _ => false
  | .undef0101 _ => false
  | .undef0110 _ => false
  | .undef0111 _ => false
  | .undef1000 _ => false
  | .undef1001 _ => false
  | .undef1010 _ => false
  | .undef1011 _ => false
  | .undef1100 _ => false
  | .undef1101 _ => false
  | .out low => low == 0
  | .hlt low => low == 0

/-- A line of the binary image: exactly 8 characters, each `0` or `1` (rule R69). -/
def imageLineWf (line : List Char) : Bool :=
  line.length == Config.imageLineChars && line.all fun c => c == '0' || c == '1'

/-- The lines of a loadable image: at most 16, each well formed (rules R69, R70; D14 refuses the rest). -/
def imageLinesWf (lines : List (List Char)) : Bool :=
  decide (lines.length ≤ Config.memWords) && lines.all imageLineWf

/-- The words of a loadable image: at most 16 (rule R34; D14). -/
def imageWf (image : List Word8) : Bool :=
  decide (image.length ≤ Config.memWords)

end Sys2Proof
end

