-- ==== Sys2Proof/Decode.lean ====
section
/-! DEFINITION. From instruction words to instructions, and back.

The decoder follows spec/30_encoding.md rules R49, R50 and R52.  The encoder stands after it, written from the
same opcode map (rule R50; the assembler's contract in rule R67 is its image on `Instr.assembles`). -/

namespace Sys2Proof

/-- The opcode field, `IR[7:4]` (rule R49). -/
def opField (w : Word8) : Nibble := w.extractLsb' 4 4

/-- The operand field, `IR[3:0]`, used unchanged as an `Addr4` (rules R49, R51). -/
def addrField (w : Word8) : Addr4 := w.extractLsb' 0 4

/-- The decode function, total on all 256 words (rule R52).  The last arm is opcode 1111, the one 4-bit
value left. -/
def decode (w : Word8) : Instr :=
  match opField w with
  | 0b0000#4 => .lda (addrField w)
  | 0b0001#4 => .add (addrField w)
  | 0b0010#4 => .sub (addrField w)
  | 0b0011#4 => .undef0011 (addrField w)
  | 0b0100#4 => .undef0100 (addrField w)
  | 0b0101#4 => .undef0101 (addrField w)
  | 0b0110#4 => .undef0110 (addrField w)
  | 0b0111#4 => .undef0111 (addrField w)
  | 0b1000#4 => .undef1000 (addrField w)
  | 0b1001#4 => .undef1001 (addrField w)
  | 0b1010#4 => .undef1010 (addrField w)
  | 0b1011#4 => .undef1011 (addrField w)
  | 0b1100#4 => .undef1100 (addrField w)
  | 0b1101#4 => .undef1101 (addrField w)
  | 0b1110#4 => .out (addrField w)
  | _ => .hlt (addrField w)

/-- Why the decoder gives no instruction from a stream of words. -/
inductive DecodeError where
  /-- The stream is empty: there is no word to decode.  Safe: the core never raises it, since a fetch
  always yields a word (spec/20_memory.md rule R37). -/
  | endOfStream
  deriving DecidableEq, Repr

/-- The first instruction of a stream of words and the words after it.  Every instruction is one word
(rule R48), so the only stream that is rejected is the empty one. -/
def decodeStream : List Word8 → Except DecodeError (Instr × List Word8)
  | [] => .error .endOfStream
  | w :: ws => .ok (decode w, ws)

/-- The word whose bits are the low `nbits` bits of `w`, the bits above them 0. -/
def tableWord (nbits w : Nat) : Word8 := BitVec.ofNat 8 (w % 2 ^ nbits)

/-- The instruction the decoder reads from an instruction whose bits are `w`, numbered as
spec/opcode_table.json numbers them. -/
def decodeTableWord (nbits w : Nat) : Option Instr :=
  match decodeStream (if nbits = 0 then [] else [tableWord nbits w]) with
  | .ok (i, _) => some i
  | .error _ => none

/-- `op << 4 | low` (rules R49, R58). -/
def packWord (op low : Nibble) : Word8 := op ++ low

/-- The word of an instruction (rule R50). -/
def encode : Instr → Word8
  | .lda addr => packWord 0b0000 addr
  | .add addr => packWord 0b0001 addr
  | .sub addr => packWord 0b0010 addr
  | .undef0011 low => packWord 0b0011 low
  | .undef0100 low => packWord 0b0100 low
  | .undef0101 low => packWord 0b0101 low
  | .undef0110 low => packWord 0b0110 low
  | .undef0111 low => packWord 0b0111 low
  | .undef1000 low => packWord 0b1000 low
  | .undef1001 low => packWord 0b1001 low
  | .undef1010 low => packWord 0b1010 low
  | .undef1011 low => packWord 0b1011 low
  | .undef1100 low => packWord 0b1100 low
  | .undef1101 low => packWord 0b1101 low
  | .out low => packWord 0b1110 low
  | .hlt low => packWord 0b1111 low

end Sys2Proof
end

