-- ==== Sys2Proof/Machine/State.lean ====
section
/-! DEFINITION. The state of the machine, the reasons a step could stop, and the state after reset.

Spec/00_scope.md rule R11: "A state of the machine is the tuple (PC, MAR, IR, ACC, B, phase, halted, mem, out)".
To these the model adds the halt snapshot that spec/41_sequencer.md rule R92 records and
spec/43_output_halt.md rule R107 defines ("the model records the pre-edge registers as the halt snapshot",
decision D5). -/

namespace Sys2Proof.Machine

/-- The sequencer's phase, CycleState (spec/10_state.md rule R22), in the cyclic order of rule R81.  The
one-hot view is `Phase.oneHot`. -/
inductive Phase where
  | address
  | increment
  | fetch
  | exec1
  | exec2
  | exec3
  deriving DecidableEq, Repr

/-- The halt snapshot: "the register values at the moment HLT sets the halt flag, before the master reset"
(rules R12, R107).  A model observation, not hardware. -/
structure Snapshot where
  pc : Addr4
  mar : Addr4
  ir : Word8
  acc : Word8
  b : Word8
  deriving DecidableEq, Repr

/-- The faults of the core: none.  Spec/60_exceptions.md rule R122: "There is no fault outcome and no refusal for
any word or state of the core"; rule R110: the core raises no exception.  No constructor, so nobody raises
one; safe. -/
inductive Fault where
  deriving DecidableEq, Repr

/-- The refusals of `exec`. -/
inductive Refusal where
  /-- An instruction without a meaning in this model.  Raised by an arm of `exec` only; none does now.
  Safe. -/
  | notModelled (mnemonic : String)
  deriving DecidableEq, Repr

/-- The 16-word memory (spec/20_memory.md rule R34), as the cells that differ from `Config.unlistedWord`, in
rising order of address.  `Memory.wf` says the form. -/
abbrev Memory := List Host.Cell

/-- The canonical form: addresses strictly rising, every address below 16 (rule R37), no cell equal to
what an unlisted address reads as. -/
def Memory.wf : Memory → Bool
  | [] => true
  | (a, v) :: rest =>
    decide (a < Config.memWords) && v != Config.unlistedWord
      && rest.all (fun c => decide (a < c.1)) && Memory.wf rest

/-- The state of the machine (rule R11). -/
structure State where
  /-- PC, program counter (rule R16). -/
  pc : Addr4
  /-- MAR, memory-address register, the only source of a memory address (rule R17). -/
  mar : Addr4
  /-- IR, instruction register (rule R18). -/
  ir : Word8
  /-- ACC, accumulator (rule R19). -/
  acc : Word8
  /-- B register, the second operand of the ALU (rule R20). -/
  b : Word8
  /-- The sequencer's phase (rule R22). -/
  phase : Phase
  /-- The halt flag (rule R23). -/
  halted : Bool
  /-- The 16-word memory (rule R34). -/
  mem : Memory
  /-- The output trace, oldest value first (spec/43_output_halt.md rule R102).  The model's record of what OUT
  emitted; no instruction reads it, and there is no output register (spec/90_conflicts.md C1). -/
  out : List Word8
  /-- The halt snapshot of this run, if HLT has been executed (rule R107). -/
  snapshot : Option Snapshot
  deriving DecidableEq, Repr

/-- The state right after reset, with no image loaded (spec/10_state.md rule R30; spec/70_reset_and_hazards.md
rules R123, R124).  The memory of an empty image is 16 zero words (rule R34;
log entry 5).  No run has halted yet, so there is no snapshot (DESIGN CHOICE, log entry 4). -/
def State.reset : State where
  pc := 0
  mar := 0
  ir := 0
  acc := 0
  b := 0
  phase := .address
  halted := false
  mem := []
  out := []
  snapshot := none

end Sys2Proof.Machine
end

