-- ==== Sys2Proof/Machine/Ops.lean ====
section
/-! DEFINITION. The named operations over memory, registers and the sequencer, and the one shared form of an
instruction: three micro-operations run by the six phases.

There is no operation that takes an exception and none that returns from one: spec/60_exceptions.md rules R110,
R112 and R114 say the core has none.  What stands in their place are the machine's two events, the halt
(`State.halt`) and the reset input (`State.rst`), rule R113. -/

namespace Sys2Proof.Machine

/-! ### Memory -/

/-- The word at a cell address; an address no cell lists reads as `Config.unlistedWord`. -/
def Memory.readCell : Memory → Nat → Word8
  | [], _ => Config.unlistedWord
  | (k, v) :: rest, a => if k = a then v else Memory.readCell rest a

/-- `MemRead(a, 1) = mem[a]` (spec/20_memory.md rule R36).  Every `Addr4` is valid (rule R37), the whole word is
returned (rule R38), and there is no translation (rule R43). -/
def Memory.read (m : Memory) (a : Addr4) : Word8 := m.readCell a.toNat

/-- Store at a cell address, keeping the canonical form. -/
def Memory.writeCell : Memory → Nat → Word8 → Memory
  | [], a, v => if v = Config.unlistedWord then [] else [(a, v)]
  | (k, x) :: rest, a, v =>
    if a < k then
      if v = Config.unlistedWord then (k, x) :: rest else (a, v) :: (k, x) :: rest
    else if a = k then
      if v = Config.unlistedWord then rest else (k, v) :: rest
    else (k, x) :: Memory.writeCell rest a v

/-- `MemWrite(a, 1, v)`: "used only by loading before a run" (rule R40).  No instruction and no phase calls
it (rule R35). -/
def Memory.write (m : Memory) (a : Addr4) (v : Word8) : Memory := m.writeCell a.toNat v

/-! ### Register and state updates: one home for every write -/

/-- `PC <- v`. -/
def State.setPc (s : State) (v : Addr4) : State := { s with pc := v }
/-- `MAR <- v`. -/
def State.setMar (s : State) (v : Addr4) : State := { s with mar := v }
/-- `IR <- v`. -/
def State.setIr (s : State) (v : Word8) : State := { s with ir := v }
/-- `ACC <- v`. -/
def State.setAcc (s : State) (v : Word8) : State := { s with acc := v }
/-- `B <- v`. -/
def State.setB (s : State) (v : Word8) : State := { s with b := v }
/-- `phase <- p`. -/
def State.setPhase (s : State) (p : Phase) : State := { s with phase := p }
/-- The memory contents, replaced from outside the core (loading an image, spec/30_encoding.md rule R70). -/
def State.setMem (s : State) (m : Memory) : State := { s with mem := m }
/-- `emit(v)`: append `v` to the output trace (spec/43_output_halt.md rule R102). -/
def State.emit (s : State) (v : Word8) : State := { s with out := s.out ++ [v] }

/-! ### Halt and reset -/

/-- "every register and the cycle state return to their initial zero/first-phase values; memory contents are
untouched" (rule R108).  The output trace and the halt flag stay too. -/
def State.masterReset (s : State) : State :=
  { s with pc := 0, mar := 0, ir := 0, acc := 0, b := 0, phase := .address }

/-- The five registers as a halt snapshot (rule R107). -/
def State.toSnapshot (s : State) : Snapshot :=
  { pc := s.pc, mar := s.mar, ir := s.ir, acc := s.acc, b := s.b }

/-- HLT's Exec1 edge: record the snapshot, set the halt flag, and perform the master reset in the same step
(spec/41_sequencer.md rule R92; rules R105, R108). -/
def State.halt (s : State) : State :=
  { s.masterReset with halted := true, snapshot := some s.toSnapshot }

/-- An active edge with `rst = 1` (spec/70_reset_and_hazards.md rule R124): registers to 0, phase to Address, the
halt flag cleared, the trace emptied, memory not changed.  The snapshot belongs to the ended run and is
dropped with its trace (DEDUCED, log entry 4). -/
def State.rst (s : State) : State :=
  { s.masterReset with halted := false, out := [], snapshot := none }

/-! ### The sequencer -/

/-- The fixed rotation of the phases (spec/41_sequencer.md rule R81). -/
def Phase.next : Phase → Phase
  | .address => .increment
  | .increment => .fetch
  | .fetch => .exec1
  | .exec1 => .exec2
  | .exec2 => .exec3
  | .exec3 => .address

/-- The one-hot view `T[5:0]` of the phase (spec/10_state.md rule R22, decision D10). -/
def Phase.oneHot : Phase → BitVec 6
  | .address => 0b000001
  | .increment => 0b000010
  | .fetch => 0b000100
  | .exec1 => 0b001000
  | .exec2 => 0b010000
  | .exec3 => 0b100000

/-- How many edges are left from this phase to the end of a six-phase instruction (rule R135). -/
def Phase.edgesLeft : Phase → Nat
  | .address => 6
  | .increment => 5
  | .fetch => 4
  | .exec1 => 3
  | .exec2 => 2
  | .exec3 => 1

/-- The move to the next phase at the end of an edge; a halted core does not advance (rules R84, R85). -/
def State.advance (s : State) : State := if s.halted then s else s.setPhase s.phase.next

/-- Phase Address, for every instruction: `MAR <- PC` (rule R87). -/
def State.addressOp (s : State) : State := s.setMar s.pc

/-- Phase Increment, for every instruction: `PC <- PC {+} 1`, modulo 16 (rule R88). -/
def State.incrementOp (s : State) : State := s.setPc (s.pc + 1)

/-- Phase Fetch, for every instruction: `IR <- MemRead(MAR, 1)` (rule R89). -/
def State.fetchOp (s : State) : State := s.setIr (s.mem.read s.mar)

/-- What an instruction does in its three execute phases (rule R90). -/
structure MicroOps where
  exec1 : State → State
  exec2 : State → State
  exec3 : State → State

/-- No action in any execute phase. -/
def MicroOps.none : MicroOps := { exec1 := fun s => s, exec2 := fun s => s, exec3 := fun s => s }

/-- One active clock edge with `rst = 0`, the execute phases acting as `m` says: the micro-operation of the
current phase and then the next phase; nothing while the core is halted (rules R84, R86). -/
def State.edgeWith (m : MicroOps) (s : State) : State :=
  if s.halted then s
  else
    match s.phase with
    | .address => s.addressOp.advance
    | .increment => s.incrementOp.advance
    | .fetch => s.fetchOp.advance
    | .exec1 => (m.exec1 s).advance
    | .exec2 => (m.exec2 s).advance
    | .exec3 => (m.exec3 s).advance

/-- `n` edges in a row. -/
def State.edgesWith (m : MicroOps) : Nat → State → State
  | 0, s => s
  | n + 1, s => State.edgesWith m n (s.edgeWith m)

/-- The rest of one instruction, from the phase the sequencer is in to the end of Exec3.  From phase
Address that is the whole instruction, six edges.  HLT halts at its Exec1 edge, and the edges after it
find a halted core and do nothing (rule R106). -/
def completeInstr (m : MicroOps) (s : State) : Host.Outcome State Fault Refusal :=
  .next (s.edgesWith m s.phase.edgesLeft)

end Sys2Proof.Machine
end

