-- ==== Sys2Proof/Machine/Operands.lean ====
section
/-! DEFINITION. The operand forms.  There is one: the direct address (spec/30_encoding.md rule R51;
spec/42_load_arith.md, "The single addressing mode of all three is direct").  OUT, HLT and the undefined opcodes
have no operand. -/

namespace Sys2Proof.Machine

/-- Exec1 of LDA, ADD and SUB: `MAR <- addr`.  Of a decoded instruction `addr` is `IR[3:0]` (rule R86); no
base, no index, no modification. -/
def State.operandToMar (addr : Addr4) (s : State) : State := s.setMar addr

/-- The operand word, `MemRead(MAR, 1)`: the full 8 bits, no extension (spec/20_memory.md rules R36, R38). -/
def State.operand (s : State) : Word8 := s.mem.read s.mar

/-- The opcode classes of the decode function (rule R52: "a tagged union over LDA, ADD, SUB, OUT, HLT,
Undefined"). -/
inductive OpClass where
  | lda
  | add
  | sub
  | out
  | hlt
  | undef
  deriving DecidableEq, Repr

/-- The class of an opcode field (rule R52). -/
def OpClass.ofField (op : Nibble) : OpClass :=
  if op = 0b0000 then .lda
  else if op = 0b0001 then .add
  else if op = 0b0010 then .sub
  else if op = 0b1110 then .out
  else if op = 0b1111 then .hlt
  else .undef

/-- The opcode class of the instruction in IR; decoded afresh, never stored (rule R52). -/
def State.opClass (s : State) : OpClass := OpClass.ofField (opField s.ir)

/-- Whether the class reads a memory operand (rule R86, Exec1). -/
def OpClass.readsMemory : OpClass → Bool
  | .lda => true
  | .add => true
  | .sub => true
  | .out => false
  | .hlt => false
  | .undef => false

end Sys2Proof.Machine
end

