-- ==== Sys2Proof/Machine/LoadArith.lean ====
section
/-! DEFINITION. LDA, ADD and SUB (spec/42_load_arith.md): their micro-operations in the three execute phases, and
their meanings. -/

namespace Sys2Proof.Machine

/-- LDA (rule R96): Exec1 `MAR <- IR[3:0]`, Exec2 `ACC <- MemRead(MAR, 1)`, Exec3 no-op. -/
def ldaOps (addr : Addr4) : MicroOps :=
  { exec1 := fun s => s.operandToMar addr
    exec2 := fun s => s.setAcc s.operand
    exec3 := fun s => s }

/-- ADD (rule R97): Exec1 `MAR <- IR[3:0]`, Exec2 `B <- MemRead(MAR, 1)`, Exec3 `ACC <- ALU(ACC, B, 0)`. -/
def addOps (addr : Addr4) : MicroOps :=
  { exec1 := fun s => s.operandToMar addr
    exec2 := fun s => s.setB s.operand
    exec3 := fun s => s.setAcc (alu s.acc s.b false) }

/-- SUB (rule R98): as ADD, with Exec3 `ACC <- ALU(ACC, B, 1)`; B is the subtrahend. -/
def subOps (addr : Addr4) : MicroOps :=
  { exec1 := fun s => s.operandToMar addr
    exec2 := fun s => s.setB s.operand
    exec3 := fun s => s.setAcc (alu s.acc s.b true) }

/-- LDA, from the current phase to its end (rule R96). -/
def execLda (addr : Addr4) (s : State) : Host.Outcome State Fault Refusal :=
  completeInstr (ldaOps addr) s

/-- ADD, from the current phase to its end (rule R97). -/
def execAdd (addr : Addr4) (s : State) : Host.Outcome State Fault Refusal :=
  completeInstr (addOps addr) s

/-- SUB, from the current phase to its end (rule R98). -/
def execSub (addr : Addr4) (s : State) : Host.Outcome State Fault Refusal :=
  completeInstr (subOps addr) s

end Sys2Proof.Machine
end

