-- ==== Sys2Proof/Machine/OutputHalt.lean ====
section
/-! DEFINITION. OUT, HLT and the undefined opcodes (spec/43_output_halt.md): their micro-operations in the three
execute phases, and their meanings.  None of them reads the low nibble of its word (spec/30_encoding.md rule R54). -/

namespace Sys2Proof.Machine

/-- OUT (rule R99): Exec1 `emit(ACC)`, then nothing.  It writes no register (rule R101). -/
def outOps (_low : Nibble) : MicroOps :=
  { MicroOps.none with exec1 := fun s => s.emit s.acc }

/-- HLT (rule R105): Exec1 takes the halt and the master reset.  Exec2 and Exec3 are not reached, since the
halted core takes no further edge (rule R106). -/
def hltOps (_low : Nibble) : MicroOps :=
  { MicroOps.none with exec1 := fun s => s.halt }

/-- Undefined opcode 0011: no action in Exec1, Exec2 or Exec3 (rule R109). -/
def undef0011Ops (_low : Nibble) : MicroOps := MicroOps.none

/-- Undefined opcode 0100: no action in Exec1, Exec2 or Exec3 (rule R109). -/
def undef0100Ops (_low : Nibble) : MicroOps := MicroOps.none

/-- Undefined opcode 0101: no action in Exec1, Exec2 or Exec3 (rule R109). -/
def undef0101Ops (_low : Nibble) : MicroOps := MicroOps.none

/-- Undefined opcode 0110: no action in Exec1, Exec2 or Exec3 (rule R109). -/
def undef0110Ops (_low : Nibble) : MicroOps := MicroOps.none

/-- Undefined opcode 0111: no action in Exec1, Exec2 or Exec3 (rule R109). -/
def undef0111Ops (_low : Nibble) : MicroOps := MicroOps.none

/-- Undefined opcode 1000: no action in Exec1, Exec2 or Exec3 (rule R109). -/
def undef1000Ops (_low : Nibble) : MicroOps := MicroOps.none

/-- Undefined opcode 1001: no action in Exec1, Exec2 or Exec3 (rule R109). -/
def undef1001Ops (_low : Nibble) : MicroOps := MicroOps.none

/-- Undefined opcode 1010: no action in Exec1, Exec2 or Exec3 (rule R109). -/
def undef1010Ops (_low : Nibble) : MicroOps := MicroOps.none

/-- Undefined opcode 1011: no action in Exec1, Exec2 or Exec3 (rule R109). -/
def undef1011Ops (_low : Nibble) : MicroOps := MicroOps.none

/-- Undefined opcode 1100: no action in Exec1, Exec2 or Exec3 (rule R109). -/
def undef1100Ops (_low : Nibble) : MicroOps := MicroOps.none

/-- Undefined opcode 1101: no action in Exec1, Exec2 or Exec3 (rule R109). -/
def undef1101Ops (_low : Nibble) : MicroOps := MicroOps.none

/-- OUT, from the current phase to its end (rule R99). -/
def execOut (low : Nibble) (s : State) : Host.Outcome State Fault Refusal :=
  completeInstr (outOps low) s

/-- HLT, from the current phase to the halt (rules R105, R106). -/
def execHlt (low : Nibble) (s : State) : Host.Outcome State Fault Refusal :=
  completeInstr (hltOps low) s

/-- Undefined opcode 0011, from the current phase to its end: "undefined opcodes simply perform no Exec1–Exec3
action" and still take all six phases and advance PC (rule R109). -/
def execUndef0011 (low : Nibble) (s : State) : Host.Outcome State Fault Refusal :=
  completeInstr (undef0011Ops low) s

/-- Undefined opcode 0100, from the current phase to its end: "undefined opcodes simply perform no Exec1–Exec3
action" and still take all six phases and advance PC (rule R109). -/
def execUndef0100 (low : Nibble) (s : State) : Host.Outcome State Fault Refusal :=
  completeInstr (undef0100Ops low) s

/-- Undefined opcode 0101, from the current phase to its end: "undefined opcodes simply perform no Exec1–Exec3
action" and still take all six phases and advance PC (rule R109). -/
def execUndef0101 (low : Nibble) (s : State) : Host.Outcome State Fault Refusal :=
  completeInstr (undef0101Ops low) s

/-- Undefined opcode 0110, from the current phase to its end: "undefined opcodes simply perform no Exec1–Exec3
action" and still take all six phases and advance PC (rule R109). -/
def execUndef0110 (low : Nibble) (s : State) : Host.Outcome State Fault Refusal :=
  completeInstr (undef0110Ops low) s

/-- Undefined opcode 0111, from the current phase to its end: "undefined opcodes simply perform no Exec1–Exec3
action" and still take all six phases and advance PC (rule R109). -/
def execUndef0111 (low : Nibble) (s : State) : Host.Outcome State Fault Refusal :=
  completeInstr (undef0111Ops low) s

/-- Undefined opcode 1000, from the current phase to its end: "undefined opcodes simply perform no Exec1–Exec3
action" and still take all six phases and advance PC (rule R109). -/
def execUndef1000 (low : Nibble) (s : State) : Host.Outcome State Fault Refusal :=
  completeInstr (undef1000Ops low) s

/-- Undefined opcode 1001, from the current phase to its end: "undefined opcodes simply perform no Exec1–Exec3
action" and still take all six phases and advance PC (rule R109). -/
def execUndef1001 (low : Nibble) (s : State) : Host.Outcome State Fault Refusal :=
  completeInstr (undef1001Ops low) s

/-- Undefined opcode 1010, from the current phase to its end: "undefined opcodes simply perform no Exec1–Exec3
action" and still take all six phases and advance PC (rule R109). -/
def execUndef1010 (low : Nibble) (s : State) : Host.Outcome State Fault Refusal :=
  completeInstr (undef1010Ops low) s

/-- Undefined opcode 1011, from the current phase to its end: "undefined opcodes simply perform no Exec1–Exec3
action" and still take all six phases and advance PC (rule R109). -/
def execUndef1011 (low : Nibble) (s : State) : Host.Outcome State Fault Refusal :=
  completeInstr (undef1011Ops low) s

/-- Undefined opcode 1100, from the current phase to its end: "undefined opcodes simply perform no Exec1–Exec3
action" and still take all six phases and advance PC (rule R109). -/
def execUndef1100 (low : Nibble) (s : State) : Host.Outcome State Fault Refusal :=
  completeInstr (undef1100Ops low) s

/-- Undefined opcode 1101, from the current phase to its end: "undefined opcodes simply perform no Exec1–Exec3
action" and still take all six phases and advance PC (rule R109). -/
def execUndef1101 (low : Nibble) (s : State) : Host.Outcome State Fault Refusal :=
  completeInstr (undef1101Ops low) s

end Sys2Proof.Machine
end

