-- ==== Sys2Proof/Machine/Dispatch.lean ====
section
/-! DEFINITION. The meaning of every instruction, one arm per constructor. -/

namespace Sys2Proof.Machine

/-- Run the instruction `i` from the phase the sequencer is in to the instruction's end. -/
def exec (i : Instr) (s : State) : Host.Outcome State Fault Refusal :=
  match i with
  | .lda addr => Sys2Proof.Machine.execLda addr s
  | .add addr => Sys2Proof.Machine.execAdd addr s
  | .sub addr => Sys2Proof.Machine.execSub addr s
  | .undef0011 low => Sys2Proof.Machine.execUndef0011 low s
  | .undef0100 low => Sys2Proof.Machine.execUndef0100 low s
  | .undef0101 low => Sys2Proof.Machine.execUndef0101 low s
  | .undef0110 low => Sys2Proof.Machine.execUndef0110 low s
  | .undef0111 low => Sys2Proof.Machine.execUndef0111 low s
  | .undef1000 low => Sys2Proof.Machine.execUndef1000 low s
  | .undef1001 low => Sys2Proof.Machine.execUndef1001 low s
  | .undef1010 low => Sys2Proof.Machine.execUndef1010 low s
  | .undef1011 low => Sys2Proof.Machine.execUndef1011 low s
  | .undef1100 low => Sys2Proof.Machine.execUndef1100 low s
  | .undef1101 low => Sys2Proof.Machine.execUndef1101 low s
  | .out low => Sys2Proof.Machine.execOut low s
  | .hlt low => Sys2Proof.Machine.execHlt low s

end Sys2Proof.Machine
end

