-- ==== Sys2Proof/Machine/Sequencer.lean ====
section
/-! DEFINITION. The core at its own grain, one phase per active clock edge (spec/41_sequencer.md rule R84): the
edge, the reset input, the word of the current instruction, the control word and the datapath it drives, and the
ports. -/

namespace Sys2Proof.Machine

/-! ### One clock edge -/

/-- What each instruction does in its execute phases (rule R86). -/
def microOps : Instr → MicroOps
  | .lda addr => ldaOps addr
  | .add addr => addOps addr
  | .sub addr => subOps addr
  | .undef0011 low => undef0011Ops low
  | .undef0100 low => undef0100Ops low
  | .undef0101 low => undef0101Ops low
  | .undef0110 low => undef0110Ops low
  | .undef0111 low => undef0111Ops low
  | .undef1000 low => undef1000Ops low
  | .undef1001 low => undef1001Ops low
  | .undef1010 low => undef1010Ops low
  | .undef1011 low => undef1011Ops low
  | .undef1100 low => undef1100Ops low
  | .undef1101 low => undef1101Ops low
  | .out low => outOps low
  | .hlt low => hltOps low

/-- One active clock edge with `rst = 0`: rule R92's `step`, the micro-operation of the current phase, gated in
the execute phases by the opcode in IR. -/
def State.tick (s : State) : State := s.edgeWith (microOps (decode s.ir))

/-- `n` clock edges with `rst = 0`. -/
def State.ticks : Nat → State → State
  | 0, s => s
  | n + 1, s => State.ticks n s.tick

/-- One active clock edge.  The reset input takes precedence over the phase's micro-operation
(spec/60_exceptions.md rule R113; spec/70_reset_and_hazards.md rule R124). -/
def State.clockEdge (rst : Bool) (s : State) : State := if rst then s.rst else s.tick

/-- The edges of a whole stretch of time, one `rst` level for each. -/
def State.clockEdges : List Bool → State → State
  | [], s => s
  | r :: rs, s => State.clockEdges rs (s.clockEdge r)

/-! ### The instruction in progress -/

/-- The word of the instruction the core is in: before Fetch's edge it is still in memory, at the address PC
(phase Address) or MAR (phases Increment and Fetch) holds; after it, it is in IR (rules R87 to R90). -/
def State.currentWord (s : State) : Word8 :=
  match s.phase with
  | .address => s.mem.read s.pc
  | .increment => s.mem.read s.mar
  | .fetch => s.mem.read s.mar
  | .exec1 => s.ir
  | .exec2 => s.ir
  | .exec3 => s.ir

/-- The instruction the core is in. -/
def State.currentInstr (s : State) : Instr := decode s.currentWord

/-! ### The control word and the datapath -/

/-- The signals the sequencer asserts in a phase (rule R93). -/
structure ControlWord where
  marLdPc : Bool := false
  pcInc : Bool := false
  irLd : Bool := false
  marLdIr : Bool := false
  accLdMem : Bool := false
  bLdMem : Bool := false
  accLdAlu : Bool := false
  su : Bool := false
  outStb : Bool := false
  hlt : Bool := false
  deriving DecidableEq, Repr

/-- The control word of each phase and opcode class (rule R93's table).  HLT does not reach Exec2 or Exec3; its
entries there assert nothing. -/
def controlWord : Phase → OpClass → ControlWord
  | .address, _ => { marLdPc := true }
  | .increment, _ => { pcInc := true }
  | .fetch, _ => { irLd := true }
  | .exec1, .lda => { marLdIr := true }
  | .exec1, .add => { marLdIr := true }
  | .exec1, .sub => { marLdIr := true }
  | .exec1, .out => { outStb := true }
  | .exec1, .hlt => { hlt := true }
  | .exec1, .undef => {}
  | .exec2, .lda => { accLdMem := true }
  | .exec2, .add => { bLdMem := true }
  | .exec2, .sub => { bLdMem := true }
  | .exec2, .out => {}
  | .exec2, .hlt => {}
  | .exec2, .undef => {}
  | .exec3, .lda => {}
  | .exec3, .add => { accLdAlu := true }
  | .exec3, .sub => { accLdAlu := true, su := true }
  | .exec3, .out => {}
  | .exec3, .hlt => {}
  | .exec3, .undef => {}

/-- MAR's load enable, `mar_load` (rule R91). -/
def State.marLoad (s : State) : Bool :=
  s.phase == .address || (s.phase == .exec1 && s.opClass.readsMemory)

/-- MAR's source multiplexer, `mar_next` (rule R91). -/
def State.marNext (s : State) : Addr4 :=
  if s.phase = .address then s.pc else addrField s.ir

/-- The register transfers a control word enables, all reading the state before the edge
(spec/00_scope.md rule R10), followed by the rotation; `hlt` halts instead. -/
def State.datapath (w : ControlWord) (s : State) : State :=
  if w.hlt then s.halt
  else
    { s with
      pc := if w.pcInc then s.pc + 1 else s.pc
      mar := if w.marLdPc then s.pc else if w.marLdIr then addrField s.ir else s.mar
      ir := if w.irLd then s.mem.read s.mar else s.ir
      acc :=
        if w.accLdMem then s.mem.read s.mar
        else if w.accLdAlu then alu s.acc s.b w.su
        else s.acc
      b := if w.bLdMem then s.mem.read s.mar else s.b
      out := if w.outStb then s.out ++ [s.acc] else s.out
      phase := s.phase.next }

/-- The control word in force (rule R93); a halted core takes no step, so nothing is asserted (rule R84). -/
def State.controlNow (s : State) : ControlWord :=
  if s.halted then {} else controlWord s.phase s.opClass

/-! ### The ports -/

/-- The outputs of the block (rule R95). -/
structure Ports where
  memAddr : Addr4
  outStb : Bool
  outData : Word8
  halt : Bool
  deriving DecidableEq, Repr

/-- The outputs as functions of the state (rule R95): `mem_addr` = MAR and `out_data` = ACC continuously, `out_stb`
in phase Exec1 of OUT while not halted, `halt` = the halt flag. -/
def State.ports (s : State) : Ports :=
  { memAddr := s.mar
    outStb := s.phase == .exec1 && s.opClass == .out && !s.halted
    outData := s.acc
    halt := s.halted }

/-- `mem_rdata`, the memory's combinational answer to `mem_addr` (rule R95, decision D3). -/
def State.memRdata (s : State) : Word8 := s.mem.read s.ports.memAddr

end Sys2Proof.Machine
end

