-- ==== Sys2Proof/Machine/Step.lean ====
section
/-! DEFINITION. One step of the model: the rest of the instruction the core is in.

The hardware's own step is one phase (spec/41_sequencer.md rule R84), and that step is `State.tick`.  The step of
this interface is coarser: it runs the clock edges up to the end of the current instruction, from phase Address
the whole instruction (DESIGN CHOICE, log entry 1).  A halted core takes no step (rule R122); `step` answers the
state unchanged. -/

namespace Sys2Proof.Machine

/-- Run the instruction the core is in to its end. -/
def step (s : State) : Host.Outcome State Fault Refusal := exec s.currentInstr s

/-- `s` with an instruction word stored where the next step fetches, at the address in PC, and the core at the
start of an instruction (phase Address, not halted), so that the next step fetches and runs that word.  It stands
for loading a program from outside the core (spec/30_encoding.md rule R70; log entry 2). -/
def State.withFetchWord (s : State) (nbits w : Nat) : State :=
  { s with phase := .address, halted := false, mem := s.mem.write s.pc (tableWord nbits w) }

end Sys2Proof.Machine
end

