-- ==== Sys2Proof/Machine/Codec.lean ====
section
/-! DEFINITION. The text codecs of the binary contract (spec/30_encoding.md rules R57, R60, R64, R69): lines, tokens,
binary numerals and hexadecimal numerals, as lists of characters. -/

namespace Sys2Proof.Machine

/-- The pieces of a text between the characters `cut` accepts; always at least one piece. -/
def splitWhere (cut : Char → Bool) : List Char → List (List Char)
  | [] => [[]]
  | c :: cs =>
    if cut c then [] :: splitWhere cut cs
    else
      match splitWhere cut cs with
      | [] => [[c]]
      | piece :: pieces => (c :: piece) :: pieces

/-- The lines of a text.  The last piece is what follows the last newline. -/
def splitLines (text : List Char) : List (List Char) := splitWhere (fun c => c == '\n') text

/-- White space (DESIGN CHOICE, log entry 6): space, tab, newline, vertical tab, form feed, carriage return. -/
def isWhite (c : Char) : Bool := c == ' ' || (decide ('\t' ≤ c) && decide (c ≤ '\r'))

/-- The tokens of a line: "split each line on whitespace" (rule R57).  A run of white space separates two tokens as
one character does, and white space at either end of the line gives no token: no token is empty (DESIGN CHOICE, log
entry 17; the spec does not say). -/
def tokens (line : List Char) : List (List Char) := (splitWhere isWhite line).filter fun t => !t.isEmpty

/-- The value of a binary digit character. -/
def bitValue (c : Char) : Nat := if c = '1' then 1 else 0

/-- `binaryToDecimal`: "standard positional evaluation, most-significant bit first" (rules R8, R69). -/
def binaryToDecimal (digits : List Char) : Nat := digits.foldl (fun n c => 2 * n + bitValue c) 0

/-- `decimalToBinary`, masked to `width` bits, most significant first (rules R64, R69). -/
def decimalToBinary : (width : Nat) → Nat → List Char
  | 0, _ => []
  | k + 1, n => (if n.testBit k then '1' else '0') :: decimalToBinary k n

/-- The value of a hexadecimal digit; only `0` to `9` and lower-case `a` to `f` are digits (rule R60, decision
D16; spec/90_conflicts.md C3). -/
def hexDigitValue (c : Char) : Option Nat :=
  if '0' ≤ c ∧ c ≤ '9' then some (c.toNat - '0'.toNat)
  else if 'a' ≤ c ∧ c ≤ 'f' then some (c.toNat - 'a'.toNat + 10)
  else none

/-- `hexDigitsToDecimal`, base 16, most significant digit first; none on a character that is no digit
(rule R60). -/
def hexDigitsToDecimal (digits : List Char) : Option Nat :=
  digits.foldl (fun n c => n.bind fun k => (hexDigitValue c).map fun d => 16 * k + d) (some 0)

end Sys2Proof.Machine
end

