-- ==== Sys2Proof/Machine/Image.lean ====
section
/-! DEFINITION. The binary image, how it is loaded, and how a run starts (spec/30_encoding.md rules R69, R70;
spec/20_memory.md rule R34; spec/70_reset_and_hazards.md rules R126, R127).  Loading is the host's act before a run, not
an instruction's (rule R40). -/

namespace Sys2Proof.Machine

/-- Why an image is refused at the boundary (rule R122; decision D14).  Raised by the loader only, never by a
step; safe, the model has no machine for such an image. -/
inductive ImageError where
  /-- More than 16 lines. -/
  | tooManyLines
  /-- A line that is not exactly 8 characters of `0` and `1`. -/
  | malformedLine
  /-- Text after the last newline: the format is newline-terminated (rule R69; log entry 9). -/
  | unterminatedLine
  deriving DecidableEq, Repr

/-- Memory holding the words of `image` at addresses `k`, `k + 1`, … and the padding elsewhere. -/
def Memory.ofImageFrom : Nat → List Word8 → Memory
  | _, [] => []
  | k, w :: ws => (Memory.ofImageFrom (k + 1) ws).writeCell k w

/-- The memory "created at CPU construction from a program image" (rule R34): word `i` of the image at address
`i`, zero words after it.  More than 16 words are refused (D14). -/
def loadImage (image : List Word8) : Except ImageError Memory :=
  if imageWf image then .ok (Memory.ofImageFrom 0 image) else .error .tooManyLines

/-- The word of one image line, most significant bit first (rule R69). -/
def lineWord (line : List Char) : Word8 := BitVec.ofNat 8 (binaryToDecimal line)

/-- The words of an image text (rules R69, R70; D14 refuses every other text). -/
def parseImage (text : List Char) : Except ImageError (List Word8) :=
  let pieces := splitLines text
  if pieces.getLast? = some [] then
    let lines := pieces.dropLast
    if lines.length ≤ Config.memWords then
      if imageLinesWf lines then .ok (lines.map lineWord) else .error .malformedLine
    else .error .tooManyLines
  else .error .unterminatedLine

/-- The image text of a list of words, one newline-terminated line of 8 characters each (rule R69). -/
def printImage (image : List Word8) : List Char :=
  image.flatMap fun w => decimalToBinary Config.imageLineChars w.toNat ++ ['\n']

/-- Boot (rule R127): with the image in memory, an active edge with `rst` asserted; then the core runs from
address 0. -/
def State.boot (m : Memory) : State := (State.reset.setMem m).rst

/-- From an image text to the state a run of it starts in. -/
def bootImageText (text : List Char) : Except ImageError State :=
  match parseImage text with
  | .error e => .error e
  | .ok image =>
    match loadImage image with
    | .error e => .error e
    | .ok m => .ok (State.boot m)

end Sys2Proof.Machine
end

