-- ==== Sys2Proof/Machine/Assembler.lean ====
section
/-! DEFINITION. The assembler, the other end of the binary contract (spec/30_encoding.md rules R56 to R68, in scope by
spec/00_scope.md rule R5): from source text to a 16-word image.  It is toolchain, not hardware; no step calls it. -/

namespace Sys2Proof.Machine

/-- Why a source is refused; a fatal error produces no image (rule R65).  Raised by the assembler only, never by
a step; safe. -/
inductive AsmError where
  /-- The first token of a line is none of LDA, ADD, SUB, OUT, HLT, SET (rule R57). -/
  | unknownOpcode
  /-- A digit outside `0-9a-f` in a literal (rule R60). -/
  | invalidHexDigit
  /-- The wrong number of operand tokens (decision D17). -/
  | operandCount
  /-- A literal with no digit after its two prefix characters (DESIGN CHOICE, log entry 7). -/
  | noDigits
  deriving DecidableEq, Repr

/-- The six names a source line may begin with (rule R57). -/
inductive AsmOp where
  | lda
  | add
  | sub
  | out
  | hlt
  | set
  deriving DecidableEq, Repr

/-- The name as it is written: upper case only (decision D17). -/
def AsmOp.name : AsmOp → List Char
  | .lda => ['L', 'D', 'A']
  | .add => ['A', 'D', 'D']
  | .sub => ['S', 'U', 'B']
  | .out => ['O', 'U', 'T']
  | .hlt => ['H', 'L', 'T']
  | .set => ['S', 'E', 'T']

/-- How many operand tokens follow the name (rules R58, R59, R61; decision D17). -/
def AsmOp.operandCount : AsmOp → Nat
  | .lda => 1
  | .add => 1
  | .sub => 1
  | .out => 0
  | .hlt => 0
  | .set => 2

/-- The name a first token is, matched exactly (rule R57). -/
def AsmOp.ofToken (token : List Char) : Option AsmOp :=
  [AsmOp.lda, .add, .sub, .out, .hlt, .set].find? fun op => op.name == token

/-- A source statement with its operands decoded and masked to their fields. -/
inductive AsmStmt where
  | lda (addr : Addr4)
  | add (addr : Addr4)
  | sub (addr : Addr4)
  | out
  | hlt
  /-- The pseudo-instruction SET: a data word at an explicit address (rule R61). -/
  | set (addr : Addr4) (data : Word8)
  deriving DecidableEq, Repr

/-- The instruction a statement stands for; SET "expands to no instruction" (rule R61).  OUT and HLT have a zero
low nibble (rule R59). -/
def AsmStmt.instr? : AsmStmt → Option Instr
  | .lda addr => some (.lda addr)
  | .add addr => some (.add addr)
  | .sub addr => some (.sub addr)
  | .out => some (.out 0)
  | .hlt => some (.hlt 0)
  | .set _ _ => none

/-- A line counts unless it is blank or its first character is `;` (rule R56, decision D17). -/
def significant (line : List Char) : Bool := line.head? != some ';' && !line.all isWhite

/-- The lines that are assembled: the first 16 significant ones (rule R56). -/
def sourceLines (text : List Char) : List (List Char) :=
  ((splitLines text).filter significant).take Config.maxSourceLines

/-- Apply `f` to every element, stopping at the first error. -/
def mapExcept {α β ε : Type} (f : α → Except ε β) : List α → Except ε (List β)
  | [] => .ok []
  | a :: as =>
    match f a with
    | .error e => .error e
    | .ok b =>
      match mapExcept f as with
      | .error e => .error e
      | .ok bs => .ok (b :: bs)

/-- Pass 1 on one line: tokens, the opcode, and the number of operands (rule R57, decision D17). -/
def tokenizeLine (line : List Char) : Except AsmError (AsmOp × List (List Char)) :=
  match tokens line with
  | [] => .error .unknownOpcode
  | name :: operands =>
    match AsmOp.ofToken name with
    | none => .error .unknownOpcode
    | some op => if operands.length = op.operandCount then .ok (op, operands) else .error .operandCount

/-- The value of a literal: the two prefix characters are stripped unchecked, the rest is hexadecimal
(rule R60, decision D17). -/
def literalValue : List Char → Except AsmError Nat
  | _ :: _ :: d :: ds =>
    match hexDigitsToDecimal (d :: ds) with
    | some n => .ok n
    | none => .error .invalidHexDigit
  | _ => .error .noDigits

/-- An address literal, masked to 4 bits (rule R64, decision D15). -/
def addrLiteral (token : List Char) : Except AsmError Addr4 :=
  match literalValue token with
  | .ok n => .ok (BitVec.ofNat 4 n)
  | .error e => .error e

/-- A data literal, masked to 8 bits (rule R64, decision D15). -/
def dataLiteral (token : List Char) : Except AsmError Word8 :=
  match literalValue token with
  | .ok n => .ok (BitVec.ofNat 8 n)
  | .error e => .error e

/-- The statement of a one-address name. -/
def addrStmt (make : Addr4 → AsmStmt) (token : List Char) : Except AsmError AsmStmt :=
  match addrLiteral token with
  | .ok a => .ok (make a)
  | .error e => .error e

/-- Pass 2 on one tokenized line: the operands' values (rules R58, R59, R61). -/
def resolveLine : AsmOp × List (List Char) → Except AsmError AsmStmt
  | (.lda, [t]) => addrStmt .lda t
  | (.add, [t]) => addrStmt .add t
  | (.sub, [t]) => addrStmt .sub t
  | (.out, []) => .ok .out
  | (.hlt, []) => .ok .hlt
  | (.set, [t, d]) =>
    match addrLiteral t with
    | .error e => .error e
    | .ok a =>
      match dataLiteral d with
      | .error e => .error e
      | .ok v => .ok (.set a v)
  | _ => .error .operandCount

/-- The statements of a source text: pass 1 over every line, then pass 2 (rule R57; the order of errors is log
entry 8). -/
def parseSource (text : List Char) : Except AsmError (List AsmStmt) :=
  match mapExcept tokenizeLine (sourceLines text) with
  | .error e => .error e
  | .ok lines => mapExcept resolveLine lines

/-- An image of 16 zero words: unused slots hold 0x00 (rule R66). -/
def emptyImage : List Word8 := List.replicate Config.memWords 0

/-- Place one statement (rules R61, R62, R67): an instruction at the cursor, which moves on; a SET word at its own
address, the cursor staying. -/
def placeStmt (cur : Nat) (image : List Word8) : AsmStmt → Nat × List Word8
  | .lda addr => (cur + 1, image.set cur (encode (.lda addr)))
  | .add addr => (cur + 1, image.set cur (encode (.add addr)))
  | .sub addr => (cur + 1, image.set cur (encode (.sub addr)))
  | .out => (cur + 1, image.set cur (encode (.out 0)))
  | .hlt => (cur + 1, image.set cur (encode (.hlt 0)))
  | .set addr data => (cur, image.set addr.toNat data)

/-- Place statements in source order; on a collision the last one written stays (rules R62, R63). -/
def placeAll : Nat → List Word8 → List AsmStmt → Nat × List Word8
  | cur, image, [] => (cur, image)
  | cur, image, st :: sts => placeAll (placeStmt cur image st).1 (placeStmt cur image st).2 sts

/-- The image of a list of statements (rule R67). -/
def emitImage (stmts : List AsmStmt) : List Word8 := (placeAll 0 emptyImage stmts).2

/-- The assembler: source text to image words (rules R56 to R68). -/
def assemble (text : List Char) : Except AsmError (List Word8) :=
  match parseSource text with
  | .error e => .error e
  | .ok stmts => .ok (emitImage stmts)

/-- The assembler's output text, 16 lines (rule R66). -/
def assembleToText (text : List Char) : Except AsmError (List Char) :=
  match assemble text with
  | .error e => .error e
  | .ok image => .ok (printImage image)

/-! ### The canonical listing of statements, in the syntax of rules R58, R59 and R61 -/

/-- The lower-case hexadecimal digit of a nibble. -/
def hexChar (n : Nibble) : Char :=
  if n.toNat < 10 then Char.ofNat ('0'.toNat + n.toNat) else Char.ofNat ('a'.toNat + (n.toNat - 10))

/-- `0x` and one digit. -/
def printAddr (a : Addr4) : List Char := ['0', 'x', hexChar a]

/-- `0x` and two digits. -/
def printData (d : Word8) : List Char := ['0', 'x', hexChar (opField d), hexChar (addrField d)]

/-- One statement as a source line, without its newline. -/
def AsmStmt.print : AsmStmt → List Char
  | .lda addr => AsmOp.lda.name ++ ' ' :: printAddr addr
  | .add addr => AsmOp.add.name ++ ' ' :: printAddr addr
  | .sub addr => AsmOp.sub.name ++ ' ' :: printAddr addr
  | .out => AsmOp.out.name
  | .hlt => AsmOp.hlt.name
  | .set addr data => AsmOp.set.name ++ ' ' :: (printAddr addr ++ ' ' :: printData data)

/-- Statements as source text, one newline-terminated line each. -/
def printSource (stmts : List AsmStmt) : List Char := stmts.flatMap fun st => st.print ++ ['\n']

end Sys2Proof.Machine
end

