-- ==== Sys2Proof/Machine/Display.lean ====
section
/-! DEFINITION. The host's display of an emitted word (spec/43_output_halt.md rules R103, R104).  "not hardware;
specified so that the document's examples can be checked": no step reads it. -/

namespace Sys2Proof.Machine

/-- `decimal(n)`: "the base-10 numeral of n without leading zeros or sign" (rule R104). -/
def decimalNumeral (n : Nat) : List Char := Nat.toDigits 10 n

/-- `display(v)`: the decimal magnitude, after a `-` when bit 7 is set; the magnitude of a negative value is the
ALU's `0 - v` (rule R104). -/
def display (v : Word8) : List Char :=
  if v.msb then '-' :: decimalNumeral (alu 0 v true).toNat else decimalNumeral v.toNat

/-- The console text of a run: the displays of the trace, with no separator (rule R103). -/
def consoleText (trace : List Word8) : List Char := trace.flatMap display

end Sys2Proof.Machine
end

