-- ==== Sys2Proof/Safety.lean ====
section
/-! DEFINITION. What claims speak of: a safe step, the invariants of the spec, and a halting word. -/

namespace Sys2Proof.Machine

/-- A safe step ends in a next state.  By spec/60_exceptions.md rule R122 every step is safe. -/
def SafeStep (s : State) : Prop := ∃ t, step s = .next t

/-- All five registers 0 and the phase Address: what `rst` and the master reset leave (spec/10_state.md
rule R30; spec/43_output_halt.md rule R108). -/
abbrev State.Cleared (s : State) : Prop :=
  s.pc = 0 ∧ s.mar = 0 ∧ s.ir = 0 ∧ s.acc = 0 ∧ s.b = 0 ∧ s.phase = .address

/-- The invariant of rule R32, with the memory's canonical form and the snapshot's place: a halted core is
cleared, and a run has a halt snapshot exactly when it has halted (rule R107). -/
abbrev State.Inv (s : State) : Prop :=
  s.mem.wf = true ∧ (s.halted = true → s.Cleared) ∧ (s.halted = true ↔ s.snapshot.isSome = true)

/-- What the registers hold inside an instruction (spec/41_sequencer.md rules R87 to R90;
spec/70_reset_and_hazards.md rule R132): MAR and IR come from the instruction's own address until Exec1 of LDA, ADD or
SUB moves MAR to the operand, and Exec2 has then loaded the operand. -/
abbrev State.Coherent (s : State) : Prop :=
  (s.phase = .increment → s.mar = s.pc) ∧
  (s.phase = .fetch → s.pc = s.mar + 1) ∧
  (s.phase = .exec1 → s.pc = s.mar + 1 ∧ s.ir = s.mem.read s.mar) ∧
  (s.phase = .exec2 ∨ s.phase = .exec3 →
    s.ir = s.mem.read (s.pc - 1) ∧ s.opClass ≠ .hlt ∧
    s.mar = if s.opClass.readsMemory then addrField s.ir else s.pc - 1) ∧
  (s.phase = .exec3 → s.opClass = .lda → s.acc = s.mem.read s.mar) ∧
  (s.phase = .exec3 → s.opClass = .add ∨ s.opClass = .sub → s.b = s.mem.read s.mar)

/-- The edge at which HLT takes the halt: Exec1 of HLT in a running core (rule R85). -/
abbrev State.Halting (s : State) : Prop :=
  s.halted = false ∧ s.phase = .exec1 ∧ s.opClass = .hlt

/-- The word at address `a` is a HLT: `word[7:4] = 1111` (rule R137). -/
abbrev Memory.HltAt (m : Memory) (a : Addr4) : Prop := opField (m.read a) = 0b1111

/-- Two states at the start of an instruction that agree on all a run's output can depend on: PC, ACC, the
memory, the halt flag and the trace so far.  MAR, IR and B may differ (spec/10_state.md rule R26). -/
abbrev State.SameVisible (s t : State) : Prop :=
  s.phase = .address ∧ t.phase = .address ∧
  s.pc = t.pc ∧ s.acc = t.acc ∧ s.mem = t.mem ∧ s.halted = t.halted ∧ s.out = t.out

end Sys2Proof.Machine
end

