-- ==== Sys2Proof/Certificates/Slice0/Obligations.lean ====
section
/-! DEFINITION. The statements for the provers.  Each docstring names the rules of spec/ it formalises.

"Not halted" is `s.halted = false`.  `exec i s` and `step s` run the rest of an instruction; `State.tick` is one
clock edge (spec/41_sequencer.md rule R84). -/

open Sys2Proof Sys2Proof.Machine

/-! ### Reset -/

/-- Rules R30 and R34: the reset value of every piece of state, at construction, on the reset input, and after the
master reset of a halt.  That `State.reset`'s memory reads 0 everywhere is the model's choice of the empty image at
reset, padded as rule R34 says (log entry 5); R30 itself gives memory the loaded image, which is the clause about
`State.boot`. -/
def Obligations.ResetValuesOfEveryField : Prop :=
  (State.reset.pc = 0 ∧ State.reset.mar = 0 ∧ State.reset.ir = 0 ∧ State.reset.acc = 0 ∧ State.reset.b = 0 ∧
    State.reset.phase = .address ∧ State.reset.phase.oneHot = 0b000001 ∧ State.reset.halted = false ∧
    State.reset.out = [] ∧ (∀ a, State.reset.mem.read a = 0) ∧ ∀ m, (State.boot m).mem = m) ∧
  (∀ s : State, s.rst.Cleared ∧ s.rst.halted = false ∧ s.rst.out = [] ∧ s.rst.mem = s.mem) ∧
  (∀ s : State, s.halt.Cleared ∧ s.halt.halted = true ∧ s.halt.mem = s.mem)

/-- Rule R124: an active edge with `rst = 1`, whatever the core was about to do at that edge. -/
def Obligations.RstEdgeClearsAllButMemory : Prop :=
  ∀ s : State,
    (s.clockEdge true).pc = 0 ∧ (s.clockEdge true).mar = 0 ∧ (s.clockEdge true).ir = 0 ∧
    (s.clockEdge true).acc = 0 ∧ (s.clockEdge true).b = 0 ∧ (s.clockEdge true).phase = .address ∧
    (s.clockEdge true).halted = false ∧ (s.clockEdge true).out = [] ∧ (s.clockEdge true).mem = s.mem

/-- Rules R129 and R130: asserting `rst` in any state, a halted one among them, starts the same run as booting the
same memory, step for step.  That `rst` drops the snapshot is the model's reading (log entry 4). -/
def Obligations.RstStartsTheSameRunAgain : Prop :=
  ∀ (s : State) (n : Nat), core.run n (s.clockEdge true) = core.run n (State.boot s.mem)

/-! ### The sequencer -/

/-- Rules R81 and R82: the fixed rotation, its period, and its one-hot view. -/
def Obligations.PhaseRotationHasPeriodSix : Prop :=
  (Phase.next .address = .increment ∧ Phase.next .increment = .fetch ∧ Phase.next .fetch = .exec1 ∧
    Phase.next .exec1 = .exec2 ∧ Phase.next .exec2 = .exec3 ∧ Phase.next .exec3 = .address) ∧
  ∀ p : Phase,
    Phase.next^[6] p = p ∧ (∀ k, 1 ≤ k → k ≤ 5 → Phase.next^[k] p ≠ p) ∧
    p.next.oneHot = p.oneHot.rotateLeft 1 ∧
    ∃ i, i < 6 ∧ ∀ j, p.oneHot.getLsbD j = decide (j = i)

/-- Rules R87, R88 and R89: the three phases every instruction begins with, and the word the third of them
fetches. -/
def Obligations.CommonPhasesFetchTheWordAtPc : Prop :=
  ∀ s : State, s.halted = false →
    (s.phase = .address → s.tick = { s with mar := s.pc, phase := .increment }) ∧
    (s.phase = .increment → s.tick = { s with pc := s.pc + 1, phase := .fetch }) ∧
    (s.phase = .fetch → s.tick = { s with ir := s.mem.read s.mar, phase := .exec1 }) ∧
    (s.phase = .address →
      s.ticks 3 = { s with mar := s.pc, pc := s.pc + 1, ir := s.mem.read s.pc, phase := .exec1 })

/-- Rules R86 and R92: the whole micro-operation table as one edge of the core, with the halt of rule R85.  The
entry of HLT in Exec2 and Exec3, which no run reaches, is rule R92's: the phase moves on. -/
def Obligations.EdgeFollowsTheMicroOperationTable : Prop :=
  ∀ s : State,
    (s.halted = true → s.tick = s) ∧
    (s.halted = false →
      (s.phase = .address → s.tick = { s with mar := s.pc, phase := .increment }) ∧
      (s.phase = .increment → s.tick = { s with pc := s.pc + 1, phase := .fetch }) ∧
      (s.phase = .fetch → s.tick = { s with ir := s.mem.read s.mar, phase := .exec1 }) ∧
      (s.phase = .exec1 →
        (s.opClass = .lda ∨ s.opClass = .add ∨ s.opClass = .sub →
          s.tick = { s with mar := addrField s.ir, phase := .exec2 }) ∧
        (s.opClass = .out → s.tick = { s with out := s.out ++ [s.acc], phase := .exec2 }) ∧
        (s.opClass = .hlt →
          s.tick = { s with
            pc := 0, mar := 0, ir := 0, acc := 0, b := 0, phase := .address, halted := true,
            snapshot := some { pc := s.pc, mar := s.mar, ir := s.ir, acc := s.acc, b := s.b } }) ∧
        (s.opClass = .undef → s.tick = { s with phase := .exec2 })) ∧
      (s.phase = .exec2 →
        (s.opClass = .lda → s.tick = { s with acc := s.mem.read s.mar, phase := .exec3 }) ∧
        (s.opClass = .add ∨ s.opClass = .sub → s.tick = { s with b := s.mem.read s.mar, phase := .exec3 }) ∧
        (s.opClass = .out ∨ s.opClass = .hlt ∨ s.opClass = .undef → s.tick = { s with phase := .exec3 })) ∧
      (s.phase = .exec3 →
        (s.opClass = .add → s.tick = { s with acc := alu s.acc s.b false, phase := .address }) ∧
        (s.opClass = .sub → s.tick = { s with acc := alu s.acc s.b true, phase := .address }) ∧
        (s.opClass = .lda ∨ s.opClass = .out ∨ s.opClass = .hlt ∨ s.opClass = .undef →
          s.tick = { s with phase := .address })))

/-- Rules R91 and R93: the edge is the datapath driven by the control word; MAR's load enable and multiplexer are
the stated ones; PC counts only in phase Increment; at most one load enable is active. -/
def Obligations.ControlWordDrivesTheSameEdge : Prop :=
  (∀ s : State, s.halted = false →
    s.tick = s.datapath s.controlNow ∧
    (s.controlNow.marLdPc || s.controlNow.marLdIr) = s.marLoad ∧
    (s.marLoad = true → s.tick.mar = s.marNext) ∧
    (s.controlNow.pcInc = true ↔ s.phase = .increment)) ∧
  ∀ (p : Phase) (c : OpClass),
    ([(controlWord p c).marLdPc, (controlWord p c).pcInc, (controlWord p c).irLd, (controlWord p c).marLdIr,
      (controlWord p c).accLdMem, (controlWord p c).bLdMem, (controlWord p c).accLdAlu].count true) ≤ 1

/-- Rules R16 to R21, R23 and R25: which edges can change which register.  Nothing but the Increment phase and the
master reset of a halt changes PC, and so on for every register, the halt flag, the trace and the snapshot. -/
def Obligations.EachRegisterIsWrittenOnlyInItsPhases : Prop :=
  ∀ s : State,
    (s.tick.pc ≠ s.pc → s.phase = .increment ∨ s.Halting) ∧
    (s.tick.mar ≠ s.mar → s.phase = .address ∨ (s.phase = .exec1 ∧ s.opClass.readsMemory = true) ∨ s.Halting) ∧
    (s.tick.ir ≠ s.ir → s.phase = .fetch ∨ s.Halting) ∧
    (s.tick.acc ≠ s.acc →
      (s.phase = .exec2 ∧ s.opClass = .lda) ∨
      (s.phase = .exec3 ∧ (s.opClass = .add ∨ s.opClass = .sub)) ∨ s.Halting) ∧
    (s.tick.b ≠ s.b → (s.phase = .exec2 ∧ (s.opClass = .add ∨ s.opClass = .sub)) ∨ s.Halting) ∧
    (s.tick.halted ≠ s.halted → s.Halting) ∧
    (s.tick.snapshot ≠ s.snapshot → s.Halting) ∧
    (s.tick.out ≠ s.out → s.phase = .exec1 ∧ s.opClass = .out)

/-! ### The step -/

/-- A step runs the decoded instruction: at the start of an instruction, `step` is `exec` of what the word at PC
decodes to, and that is `exec` of the same instruction after the three common phases; inside an instruction it is
`exec` of what is being executed.  Nothing is added around `exec`.  (The grain is log entry 1.) -/
def Obligations.StepRunsTheDecodedInstruction : Prop :=
  ∀ (s : State) (i : Instr),
    (s.phase = .address → decode (s.mem.read s.pc) = i →
      step s = exec i s ∧ (s.halted = false → step s = exec i (s.ticks 3))) ∧
    (s.phase = .increment ∨ s.phase = .fetch → decode (s.mem.read s.mar) = i → step s = exec i s) ∧
    (s.phase = .exec1 ∨ s.phase = .exec2 ∨ s.phase = .exec3 → decode s.ir = i → step s = exec i s)

/-- The step of the interface is the spec's own step, one phase an edge, repeated to the end of the instruction
(rules R84, R92; log entry 1). -/
def Obligations.StepIsTheRemainingClockEdges : Prop :=
  ∀ s : State, step s = .next (s.ticks s.phase.edgesLeft)

/-- Rules R14, R110 and R122: no fault and no refusal, for any instruction, any word and any state. -/
def Obligations.EveryInstructionAnswersANextState : Prop :=
  (∀ (i : Instr) (s : State), ∃ t, exec i s = .next t) ∧ ∀ s : State, SafeStep s

/-- The word stored by `withFetchWord` is the next instruction to run, and it is what the decoder reads from that
word; every other address reads as before (the model's load, log entry 2). -/
def Obligations.FetchWordRunsNext : Prop :=
  ∀ (s : State) (w : Nat) (i : Instr), s.mem.wf = true → decodeTableWord 8 w = some i →
    step (s.withFetchWord 8 w) = exec i (s.withFetchWord 8 w) ∧
    (s.withFetchWord 8 w).mem.read s.pc = BitVec.ofNat 8 w ∧
    ∀ a, a ≠ s.pc → (s.withFetchWord 8 w).mem.read a = s.mem.read a

/-! ### The instructions: what each leaves, from every phase it may be in -/

/-- LDA (rule R96) answers a next state, and this one. -/
def Obligations.LdaLoadsTheAddressedWord : Prop :=
  ∀ (addr : Addr4) (s : State), s.halted = false →
    (s.phase = .address →
      exec (.lda addr) s = .next
        { s with pc := s.pc + 1, mar := addr, ir := s.mem.read s.pc, acc := s.mem.read addr }) ∧
    (s.phase = .increment →
      exec (.lda addr) s = .next
        { s with
          pc := s.pc + 1, mar := addr, ir := s.mem.read s.mar, acc := s.mem.read addr, phase := .address }) ∧
    (s.phase = .fetch →
      exec (.lda addr) s = .next
        { s with mar := addr, ir := s.mem.read s.mar, acc := s.mem.read addr, phase := .address }) ∧
    (s.phase = .exec1 →
      exec (.lda addr) s = .next { s with mar := addr, acc := s.mem.read addr, phase := .address }) ∧
    (s.phase = .exec2 → exec (.lda addr) s = .next { s with acc := s.mem.read s.mar, phase := .address }) ∧
    (s.phase = .exec3 → exec (.lda addr) s = .next { s with phase := .address })

/-- ADD (rule R97, with rule R76) answers a next state, and this one: the sum modulo 256 in ACC, the addend in B. -/
def Obligations.AddAddsTheAddressedWord : Prop :=
  ∀ (addr : Addr4) (s : State), s.halted = false →
    (s.phase = .address →
      exec (.add addr) s = .next
        { s with
          pc := s.pc + 1, mar := addr, ir := s.mem.read s.pc,
          b := s.mem.read addr, acc := s.acc + s.mem.read addr }) ∧
    (s.phase = .increment →
      exec (.add addr) s = .next
        { s with
          pc := s.pc + 1, mar := addr, ir := s.mem.read s.mar,
          b := s.mem.read addr, acc := s.acc + s.mem.read addr, phase := .address }) ∧
    (s.phase = .fetch →
      exec (.add addr) s = .next
        { s with
          mar := addr, ir := s.mem.read s.mar,
          b := s.mem.read addr, acc := s.acc + s.mem.read addr, phase := .address }) ∧
    (s.phase = .exec1 →
      exec (.add addr) s = .next
        { s with mar := addr, b := s.mem.read addr, acc := s.acc + s.mem.read addr, phase := .address }) ∧
    (s.phase = .exec2 →
      exec (.add addr) s = .next
        { s with b := s.mem.read s.mar, acc := s.acc + s.mem.read s.mar, phase := .address }) ∧
    (s.phase = .exec3 → exec (.add addr) s = .next { s with acc := s.acc + s.b, phase := .address })

/-- SUB (rule R98, with rule R75) answers a next state, and this one: ACC minus the word modulo 256 in ACC, the
subtrahend in B. -/
def Obligations.SubSubtractsTheAddressedWord : Prop :=
  ∀ (addr : Addr4) (s : State), s.halted = false →
    (s.phase = .address →
      exec (.sub addr) s = .next
        { s with
          pc := s.pc + 1, mar := addr, ir := s.mem.read s.pc,
          b := s.mem.read addr, acc := s.acc - s.mem.read addr }) ∧
    (s.phase = .increment →
      exec (.sub addr) s = .next
        { s with
          pc := s.pc + 1, mar := addr, ir := s.mem.read s.mar,
          b := s.mem.read addr, acc := s.acc - s.mem.read addr, phase := .address }) ∧
    (s.phase = .fetch →
      exec (.sub addr) s = .next
        { s with
          mar := addr, ir := s.mem.read s.mar,
          b := s.mem.read addr, acc := s.acc - s.mem.read addr, phase := .address }) ∧
    (s.phase = .exec1 →
      exec (.sub addr) s = .next
        { s with mar := addr, b := s.mem.read addr, acc := s.acc - s.mem.read addr, phase := .address }) ∧
    (s.phase = .exec2 →
      exec (.sub addr) s = .next
        { s with b := s.mem.read s.mar, acc := s.acc - s.mem.read s.mar, phase := .address }) ∧
    (s.phase = .exec3 → exec (.sub addr) s = .next { s with acc := s.acc - s.b, phase := .address })

/-- OUT (rules R99, R101) answers a next state, and this one: ACC appended to the trace, no register written but by
the common phases. -/
def Obligations.OutEmitsTheAccumulator : Prop :=
  ∀ (low : Nibble) (s : State), s.halted = false →
    (s.phase = .address →
      exec (.out low) s = .next
        { s with pc := s.pc + 1, mar := s.pc, ir := s.mem.read s.pc, out := s.out ++ [s.acc] }) ∧
    (s.phase = .increment →
      exec (.out low) s = .next
        { s with pc := s.pc + 1, ir := s.mem.read s.mar, out := s.out ++ [s.acc], phase := .address }) ∧
    (s.phase = .fetch →
      exec (.out low) s = .next
        { s with ir := s.mem.read s.mar, out := s.out ++ [s.acc], phase := .address }) ∧
    (s.phase = .exec1 → exec (.out low) s = .next { s with out := s.out ++ [s.acc], phase := .address }) ∧
    (s.phase = .exec2 ∨ s.phase = .exec3 → exec (.out low) s = .next { s with phase := .address })

/-- HLT (rules R92, R105, R107, R108) answers a next state, and this one: everything cleared, the halt flag set, the
registers before the halt in the snapshot, memory and trace untouched.  In Exec2 and Exec3, which a HLT does not
reach (rule R106), the phase only moves on: that clause is the model's reading of rule R92 (log entry 12). -/
def Obligations.HltSnapshotsAndMasterResets : Prop :=
  ∀ (low : Nibble) (s : State), s.halted = false →
    (s.phase = .address →
      exec (.hlt low) s = .next
        { s with
          pc := 0, mar := 0, ir := 0, acc := 0, b := 0, halted := true,
          snapshot := some { pc := s.pc + 1, mar := s.pc, ir := s.mem.read s.pc, acc := s.acc, b := s.b } }) ∧
    (s.phase = .increment →
      exec (.hlt low) s = .next
        { s with
          pc := 0, mar := 0, ir := 0, acc := 0, b := 0, phase := .address, halted := true,
          snapshot := some { pc := s.pc + 1, mar := s.mar, ir := s.mem.read s.mar, acc := s.acc, b := s.b } }) ∧
    (s.phase = .fetch →
      exec (.hlt low) s = .next
        { s with
          pc := 0, mar := 0, ir := 0, acc := 0, b := 0, phase := .address, halted := true,
          snapshot := some { pc := s.pc, mar := s.mar, ir := s.mem.read s.mar, acc := s.acc, b := s.b } }) ∧
    (s.phase = .exec1 →
      exec (.hlt low) s = .next
        { s with
          pc := 0, mar := 0, ir := 0, acc := 0, b := 0, phase := .address, halted := true,
          snapshot := some { pc := s.pc, mar := s.mar, ir := s.ir, acc := s.acc, b := s.b } }) ∧
    (s.phase = .exec2 ∨ s.phase = .exec3 → exec (.hlt low) s = .next { s with phase := .address })

/-- Every undefined opcode (rule R109) answers a next state, and this one: only the common phases act. -/
def Obligations.UndefinedOpcodesOnlyAdvance : Prop :=
  ∀ (low : Nibble) (s : State), s.halted = false →
    ∀ i ∈ [Instr.undef0011 low, .undef0100 low, .undef0101 low, .undef0110 low, .undef0111 low, .undef1000 low,
        .undef1001 low, .undef1010 low, .undef1011 low, .undef1100 low, .undef1101 low],
      (s.phase = .address →
        exec i s = .next { s with pc := s.pc + 1, mar := s.pc, ir := s.mem.read s.pc }) ∧
      (s.phase = .increment →
        exec i s = .next { s with pc := s.pc + 1, ir := s.mem.read s.mar, phase := .address }) ∧
      (s.phase = .fetch → exec i s = .next { s with ir := s.mem.read s.mar, phase := .address }) ∧
      (s.phase = .exec1 ∨ s.phase = .exec2 ∨ s.phase = .exec3 →
        exec i s = .next { s with phase := .address })

/-- Rule R54 and rule R51: the low nibble of OUT, HLT and the undefined opcodes makes no difference. -/
def Obligations.IgnoredNibbleMakesNoDifference : Prop :=
  ∀ (x y : Nibble) (s : State),
    exec (.out x) s = exec (.out y) s ∧ exec (.hlt x) s = exec (.hlt y) s ∧
    exec (.undef0011 x) s = exec (.undef0011 y) s ∧ exec (.undef0100 x) s = exec (.undef0100 y) s ∧
    exec (.undef0101 x) s = exec (.undef0101 y) s ∧ exec (.undef0110 x) s = exec (.undef0110 y) s ∧
    exec (.undef0111 x) s = exec (.undef0111 y) s ∧ exec (.undef1000 x) s = exec (.undef1000 y) s ∧
    exec (.undef1001 x) s = exec (.undef1001 y) s ∧ exec (.undef1010 x) s = exec (.undef1010 y) s ∧
    exec (.undef1011 x) s = exec (.undef1011 y) s ∧ exec (.undef1100 x) s = exec (.undef1100 y) s ∧
    exec (.undef1101 x) s = exec (.undef1101 y) s

/-! ### Frames -/

/-- The frame of LDA, ADD and SUB, from every phase: LDA writes PC, MAR, IR and ACC, ADD and SUB also B; the halt
flag, the trace, the snapshot and every word of memory stay (rules R96 to R98). -/
def Obligations.LoadArithFrame : Prop :=
  ∀ (addr : Addr4) (s t : State),
    (exec (.lda addr) s = .next t → t.b = s.b) ∧
    (exec (.lda addr) s = .next t ∨ exec (.add addr) s = .next t ∨ exec (.sub addr) s = .next t →
      t.halted = s.halted ∧ t.out = s.out ∧ t.snapshot = s.snapshot ∧ ∀ a, t.mem.read a = s.mem.read a)

/-- The frame of OUT, of the undefined opcodes and of HLT, from every phase: OUT and the undefined opcodes leave ACC,
B, the halt flag, the snapshot and every word of memory, and from Exec1 on also PC, MAR and IR; the undefined opcodes
and HLT leave the trace, HLT also memory (rules R101, R108, R109). -/
def Obligations.OutputHaltFrame : Prop :=
  ∀ (low : Nibble) (s t : State),
    (∀ i ∈ [Instr.out low, .undef0011 low, .undef0100 low, .undef0101 low, .undef0110 low, .undef0111 low,
        .undef1000 low, .undef1001 low, .undef1010 low, .undef1011 low, .undef1100 low, .undef1101 low],
      exec i s = .next t →
        t.acc = s.acc ∧ t.b = s.b ∧ t.halted = s.halted ∧ t.snapshot = s.snapshot ∧
        (∀ a, t.mem.read a = s.mem.read a) ∧ (i = .out low ∨ t.out = s.out) ∧
        (s.phase = .exec1 ∨ s.phase = .exec2 ∨ s.phase = .exec3 →
          t.pc = s.pc ∧ t.mar = s.mar ∧ t.ir = s.ir)) ∧
    (exec (.hlt low) s = .next t → t.out = s.out ∧ ∀ a, t.mem.read a = s.mem.read a)

/-- Rule R35: memory is constant over any stretch of edges, resets among them, and over any number of steps. -/
def Obligations.MemoryIsConstantDuringRuns : Prop :=
  (∀ (rsts : List Bool) (s : State), (s.clockEdges rsts).mem = s.mem) ∧
  ∀ (n : Nat) (s t : State), core.run n s = .next t → t.mem = s.mem

/-! ### Output -/

/-- Rule R100: an edge emits exactly when the core drives `out_stb`, it emits `out_data`, which is ACC, and an OUT run
from its start emits once. -/
def Obligations.OutputEventsAreTheStrobedEdges : Prop :=
  (∀ s : State,
    s.tick.out = (if s.ports.outStb then s.out ++ [s.ports.outData] else s.out) ∧
    s.ports.outData = s.acc ∧
    (s.ports.outStb = true ↔ s.phase = .exec1 ∧ s.opClass = .out ∧ s.halted = false)) ∧
  ∀ s t : State, s.halted = false → s.phase = .address →
    OpClass.ofField (opField (s.mem.read s.pc)) = .out → step s = .next t → t.out = s.out ++ [s.acc]

/-- Rule R102: "`emit(v)` appends `v`": what has been emitted stays, in its order, however long the run goes on. -/
def Obligations.OutputTraceOnlyGrows : Prop :=
  ∀ (n : Nat) (s t : State), core.run n s = .next t → s.out <+: t.out

/-- Rule R104: the display is the signed decimal of the word; and the rule's corner values. -/
def Obligations.DisplayIsTheSignedDecimal : Prop :=
  (∀ v : Word8,
    (v.msb = false → display v = Nat.toDigits 10 v.toNat) ∧
    (v.msb = true → display v = '-' :: Nat.toDigits 10 (256 - v.toNat))) ∧
  display 0x00 = ['0'] ∧ display 0x7F = ['1', '2', '7'] ∧ display 0x80 = ['-', '1', '2', '8'] ∧
  display 0xFD = ['-', '3'] ∧ display 0xFF = ['-', '1']

/-! ### Halt -/

/-- Rules R106 and R107: a HLT takes four edges, the halt at the fourth; the snapshot then holds HLT's address plus
one, HLT's address, the HLT word, and ACC and B as they were. -/
def Obligations.HltTakesFourPhases : Prop :=
  ∀ s : State, s.halted = false → s.phase = .address → s.mem.HltAt s.pc →
    (s.ticks 1).phase = .increment ∧ (s.ticks 2).phase = .fetch ∧ (s.ticks 3).phase = .exec1 ∧
    (∀ k, k < 4 → (s.ticks k).halted = false) ∧ (s.ticks 3).pc = s.pc + 1 ∧ (s.ticks 4).halted = true ∧
    (s.ticks 4).snapshot =
      some { pc := s.pc + 1, mar := s.pc, ir := s.mem.read s.pc, acc := s.acc, b := s.b }

/-- Rules R23, R84, R121 and R122: a halted core takes no step, by edges, by instructions or by runs, until `rst`.
The rules say "no step"; that an edge, `exec` and a run then answer the state unchanged, as a next state, is the model's
reading (log entry 3). -/
def Obligations.HaltedCoreIsQuiescent : Prop :=
  ∀ s : State, s.halted = true →
    (∀ rsts : List Bool, true ∉ rsts → s.clockEdges rsts = s) ∧
    (∀ i, exec i s = .next s) ∧ (∀ n, core.run n s = .next s) ∧ (s.clockEdge true).halted = false

/-- Rules R94 and R105: HLT is the only way a run ends, and every other instruction goes on to the next address,
15 being followed by 0. -/
def Obligations.OnlyHltLeavesTheRun : Prop :=
  ∀ s : State, s.halted = false → s.phase = .address →
    ∃ t, step s = .next t ∧ t.phase = .address ∧ (t.halted = true ↔ s.mem.HltAt s.pc) ∧
      (t.halted = false → t.pc = s.pc + 1)

/-! ### The ALU -/

/-- Rules R75 and R76: the ripple chain of rule R74 computes the sum and the difference modulo 256, for all operand
pairs. -/
def Obligations.RippleChainIsModularArithmetic : Prop :=
  ∀ a b : Word8,
    (alu a b false).toNat = (a.toNat + b.toNat) % 256 ∧
    (alu a b true).toNat = (a.toNat + (256 - b.toNat)) % 256 ∧
    alu a b false = a + b ∧ alu a b true = a - b

/-- Rule R77's carry: what the final carry would be. -/
def Obligations.FinalCarryValue : Prop :=
  ∀ a b : Word8,
    (aluCarry a b false = true ↔ 256 ≤ a.toNat + b.toNat) ∧
    (aluCarry a b true = true ↔ b.toNat ≤ a.toNat)

/-- Rule R80: the corner cases, sum and carry, and the worked example. -/
def Obligations.AluCornerCases : Prop :=
  (alu 0x00 0x00 false = 0x00 ∧ aluCarry 0x00 0x00 false = false) ∧
  (alu 0xFF 0x01 false = 0x00 ∧ aluCarry 0xFF 0x01 false = true) ∧
  (alu 0xFF 0xFF false = 0xFE ∧ aluCarry 0xFF 0xFF false = true) ∧
  (alu 0x7F 0x01 false = 0x80 ∧ aluCarry 0x7F 0x01 false = false) ∧
  (alu 0x80 0x80 false = 0x00 ∧ aluCarry 0x80 0x80 false = true) ∧
  (alu 0x05 0x05 true = 0x00 ∧ aluCarry 0x05 0x05 true = true) ∧
  (alu 0x00 0x00 true = 0x00 ∧ aluCarry 0x00 0x00 true = true) ∧
  (alu 0x00 0x01 true = 0xFF ∧ aluCarry 0x00 0x01 true = false) ∧
  (alu 0x03 0x05 true = 0xFE ∧ aluCarry 0x03 0x05 true = false) ∧
  (alu 0x80 0x01 true = 0x7F ∧ aluCarry 0x80 0x01 true = true) ∧
  (alu 0x00 0x80 true = 0x80 ∧ aluCarry 0x00 0x80 true = false) ∧
  alu 0x07 0x05 false = 0x0C ∧ alu 0x07 0x05 true = 0x02

/-! ### Encoding -/

/-- Decode and encode agree (rules R49, R50, R52): each instruction with each operand comes back from its word, and
each of the 256 words comes back from its instruction. -/
def Obligations.DecodeEncodeAgree : Prop :=
  (∀ i : Instr, decode (encode i) = i) ∧ ∀ w : Word8, encode (decode w) = w

/-- Rule R52: the decode function, with the operand field of rule R51. -/
def Obligations.DecodeFollowsTheOpcodeMap : Prop :=
  ∀ w : Word8,
    (opField w = 0b0000 → decode w = .lda (addrField w)) ∧
    (opField w = 0b0001 → decode w = .add (addrField w)) ∧
    (opField w = 0b0010 → decode w = .sub (addrField w)) ∧
    (opField w = 0b1110 → decode w = .out (addrField w)) ∧
    (opField w = 0b1111 → decode w = .hlt (addrField w)) ∧
    (opField w = 0b0011 → decode w = .undef0011 (addrField w)) ∧
    (opField w = 0b0100 → decode w = .undef0100 (addrField w)) ∧
    (opField w = 0b0101 → decode w = .undef0101 (addrField w)) ∧
    (opField w = 0b0110 → decode w = .undef0110 (addrField w)) ∧
    (opField w = 0b0111 → decode w = .undef0111 (addrField w)) ∧
    (opField w = 0b1000 → decode w = .undef1000 (addrField w)) ∧
    (opField w = 0b1001 → decode w = .undef1001 (addrField w)) ∧
    (opField w = 0b1010 → decode w = .undef1010 (addrField w)) ∧
    (opField w = 0b1011 → decode w = .undef1011 (addrField w)) ∧
    (opField w = 0b1100 → decode w = .undef1100 (addrField w)) ∧
    (opField w = 0b1101 → decode w = .undef1101 (addrField w)) ∧
    OpClass.ofField (opField w) =
      (match decode w with
        | .lda _ => .lda
        | .add _ => .add
        | .sub _ => .sub
        | .undef0011 _ => .undef
        | .undef0100 _ => .undef
        | .undef0101 _ => .undef
        | .undef0110 _ => .undef
        | .undef0111 _ => .undef
        | .undef1000 _ => .undef
        | .undef1001 _ => .undef
        | .undef1010 _ => .undef
        | .undef1011 _ => .undef
        | .undef1100 _ => .undef
        | .undef1101 _ => .undef
        | .out _ => .out
        | .hlt _ => .hlt)

/-- Rule R71: the worked encodings, and what the words decode to. -/
def Obligations.WorkedEncodings : Prop :=
  (encode (.lda 0x9) = 0b00001001 ∧ decode 0b00001001 = .lda 0x9) ∧
  (encode (.add 0xA) = 0b00011010 ∧ decode 0b00011010 = .add 0xA) ∧
  (encode (.sub 0xF) = 0b00101111 ∧ decode 0b00101111 = .sub 0xF) ∧
  (encode (.out 0) = 0b11100000 ∧ decode 0b11100000 = .out 0) ∧
  (encode (.hlt 0) = 0b11110000 ∧ decode 0b11110000 = .hlt 0) ∧
  (assemble (AsmStmt.print (.lda 0x9)) = .ok ([0x09] ++ List.replicate 15 0)) ∧
  (assemble (AsmStmt.print (.add 0xA)) = .ok ([0x1A] ++ List.replicate 15 0)) ∧
  (assemble (AsmStmt.print (.sub 0xF)) = .ok ([0x2F] ++ List.replicate 15 0)) ∧
  (assemble (AsmStmt.print .out) = .ok ([0xE0] ++ List.replicate 15 0)) ∧
  (assemble (AsmStmt.print .hlt) = .ok ([0xF0] ++ List.replicate 15 0)) ∧
  ∀ (cur : Nat) (image : List Word8), placeStmt cur image (.set 0x3 0x7F) = (cur, image.set 3 0b01111111)

/-! ### Invariants -/

/-- Rule R32: reset, and every boot of a well-formed memory, meets the invariants.  The invariant's clause about the
snapshot is the model's (log entry 4). -/
def Obligations.ResetMeetsTheInvariants : Prop :=
  State.reset.Inv ∧ State.reset.Coherent ∧ ∀ m : Memory, m.wf = true → (State.boot m).Inv ∧ (State.boot m).Coherent

/-- Rule R32: every clock edge, with or without `rst`, and every step keep the invariant, from every state that meets
it.  The clause about the snapshot is the model's (log entry 4), and the canonical form of memory is the model's own. -/
def Obligations.EveryStepKeepsTheInvariant : Prop :=
  ∀ s : State, s.Inv → (∀ t, step s = .next t → t.Inv) ∧ ∀ r, (s.clockEdge r).Inv

/-- Rules R17, R18, R89 and R132: every clock edge keeps the agreement of MAR, IR, ACC and B with the instruction in
progress. -/
def Obligations.EveryEdgeKeepsTheInstructionCoherent : Prop :=
  ∀ s : State, s.Coherent → ∀ r, (s.clockEdge r).Coherent

/-! ### Runs of any image -/

/-- Rule R137: the halting criterion.  From boot, with `h` the lowest address of a HLT, the run goes through the
addresses 0 to `h` once each and halts at `h` after `6h + 4` phases, and not before; with no HLT it goes through the
addresses cyclically, 96 phases a pass, and never halts. -/
def Obligations.HaltingCriterion : Prop :=
  ∀ m : Memory,
    (∀ h : Nat, h < 16 → m.HltAt (BitVec.ofNat 4 h) → (∀ k, k < h → ¬ m.HltAt (BitVec.ofNat 4 k)) →
      (∀ n, n ≤ h → ∃ t : State, core.run n (State.boot m) = .next t ∧ t.halted = false ∧
        t.phase = .address ∧ t.pc = BitVec.ofNat 4 n) ∧
      (∃ t : State, core.run (h + 1) (State.boot m) = .next t ∧ t.halted = true ∧
        ∃ r : Snapshot, t.snapshot = some r ∧ r.mar = BitVec.ofNat 4 h ∧ r.pc = BitVec.ofNat 4 (h + 1)) ∧
      (∀ k, k < 6 * h + 4 → ((State.boot m).ticks k).halted = false) ∧
      ((State.boot m).ticks (6 * h + 4)).halted = true) ∧
    ((∀ a, ¬ m.HltAt a) →
      (∀ k, ((State.boot m).ticks k).halted = false) ∧
      (∀ n, ∃ t : State, core.run n (State.boot m) = .next t ∧ t.halted = false ∧
        t.phase = .address ∧ t.pc = BitVec.ofNat 4 n) ∧
      ∀ n, ((State.boot m).ticks (96 * n)).pc = 0 ∧ ((State.boot m).ticks (96 * n)).phase = .address)

/-- Rule R135: every instruction but HLT takes six phases, returning to Address at the sixth edge and not before,
and is not halted by them. -/
def Obligations.SixPhasesUnlessHlt : Prop :=
  ∀ s : State, s.halted = false → s.phase = .address → ¬ s.mem.HltAt s.pc →
    (∀ k, 1 ≤ k → k ≤ 5 → (s.ticks k).phase ≠ .address ∧ (s.ticks k).halted = false) ∧
    (s.ticks 6).phase = .address ∧ (s.ticks 6).halted = false

/-- Rules R20 and R26: MAR, IR and B as a run finds them never reach its output.  Two runs that agree on PC, ACC,
memory, halt flag and trace go on agreeing on them. -/
def Obligations.HiddenRegistersNeverReachTheOutput : Prop :=
  ∀ (n : Nat) (s t : State), s.SameVisible t →
    ∃ s' t' : State, core.run n s = .next s' ∧ core.run n t = .next t' ∧ s'.SameVisible t'

/-! ### Memory, the image and the assembler -/

/-- The basic laws of the memory the loader writes (rules R34, R40), in canonical form throughout. -/
def Obligations.MemoryReadAfterWrite : Prop :=
  ∀ (m : Memory) (a : Addr4) (v : Word8), m.wf = true →
    (m.write a v).wf = true ∧ (m.write a v).read a = v ∧
    (∀ a', a' ≠ a → (m.write a v).read a' = m.read a') ∧ (m.write a (m.read a)) = m

/-- Rules R34 and R70: a loaded image of at most 16 words reads back word for word, with zero words after it; a longer
one is refused, which is the spec's own decision D14 (rule R122, log entry 16) and not R34's. -/
def Obligations.LoadedImageReadsBack : Prop :=
  ∀ image : List Word8,
    (image.length ≤ 16 →
      ∃ m, loadImage image = .ok m ∧ m.wf = true ∧ ∀ a : Addr4, m.read a = image.getD a.toNat 0) ∧
    (16 < image.length → loadImage image = .error .tooManyLines)

/-- Rules R69 and R70 with D14: the loader accepts exactly the texts that are the lines of at most 16 words, and reads
those words. -/
def Obligations.ImageTextIsExact : Prop :=
  ∀ (text : List Char) (image : List Word8),
    parseImage text = .ok image ↔ image.length ≤ 16 ∧ text = printImage image

/-- Rules R56 to R61: the assembler reads back the canonical listing of any statements, the first 16 of them. -/
def Obligations.AssemblerReadsItsListing : Prop :=
  ∀ stmts : List AsmStmt, assemble (printSource stmts) = .ok (emitImage (stmts.take 16))

/-- Rules R61, R62, R63, R66 and R67: placing one more statement writes one word, an instruction at the count of the
instructions before it and a SET word at its own address, over whatever was there; the image is always 16 words, at
first all zero. -/
def Obligations.LastStatementWritesOneWord : Prop :=
  emitImage [] = List.replicate 16 0 ∧
  ∀ (stmts : List AsmStmt) (st : AsmStmt),
    (emitImage stmts).length = 16 ∧
    (∀ a d, st = .set a d → emitImage (stmts ++ [st]) = (emitImage stmts).set a.toNat d) ∧
    (∀ i, st.instr? = some i →
      emitImage (stmts ++ [st]) =
        (emitImage stmts).set (stmts.countP fun x => x.instr?.isSome) (encode i))

/-- Rule R72: decoder and assembler agree.  A statement's word decodes to the statement's instruction, an
assembled instruction is never an undefined opcode, and OUT and HLT have operand zero. -/
def Obligations.AssemblerWordsDecode : Prop :=
  ∀ i : Instr,
    (i.assembles = true ↔ ∃ st : AsmStmt, st.instr? = some i) ∧
    (i.assembles = true →
      decode (encode i) = i ∧ OpClass.ofField (opField (encode i)) ≠ .undef ∧
      (∀ x, i = .out x ∨ i = .hlt x → x = 0))
end

