-- ==== Sys2Proof/Laws/Memory.lean ====
section
/-! SUPPORT. The basic laws of memory: a read after a write, and the canonical form. -/

namespace Sys2Proof.Machine

@[simp] theorem Memory.readCell_nil (a : Nat) : Memory.readCell [] a = Config.unlistedWord := rfl

/-- What a memory with all its cells above `a` reads at `a`. -/
theorem Memory.readCell_below {m : Memory} {a : Nat} (h : m.all (fun c => decide (a < c.1)) = true) :
    m.readCell a = Config.unlistedWord := by
  induction m with
  | nil => rfl
  | cons c rest ih =>
    simp only [List.all_cons, Bool.and_eq_true, decide_eq_true_eq] at h
    have : c.1 ≠ a := by omega
    simp [Memory.readCell, this, ih h.2]

/-- The cells of a write lie at the written address or where cells lay before. -/
theorem Memory.all_writeCell {m : Memory} {a : Nat} {v : Word8} {p : Host.Cell → Bool}
    (h : m.all p = true) (hp : p (a, v) = true) : (m.writeCell a v).all p = true := by
  induction m with
  | nil => unfold Memory.writeCell; split <;> simp [hp]
  | cons c rest ih =>
    obtain ⟨k, x⟩ := c
    simp only [List.all_cons, Bool.and_eq_true] at h
    unfold Memory.writeCell
    repeat' split
    all_goals simp_all

/-- The canonical form, one cell at a time. -/
theorem Memory.wf_cons (c : Host.Cell) (rest : Memory) :
    Memory.wf (c :: rest) = true ↔
      c.1 < Config.memWords ∧ c.2 ≠ Config.unlistedWord ∧
        rest.all (fun d => decide (c.1 < d.1)) = true ∧ Memory.wf rest = true := by
  simp [Memory.wf, and_assoc]

/-- A write keeps the canonical form. -/
theorem Memory.wf_writeCell {m : Memory} {a : Nat} (v : Word8) (ha : a < Config.memWords)
    (h : m.wf = true) : (m.writeCell a v).wf = true := by
  induction m with
  | nil => unfold Memory.writeCell; split <;> simp_all [Memory.wf]
  | cons c rest ih =>
    obtain ⟨k, x⟩ := c
    obtain ⟨hk, hx, hall, hrest⟩ := (Memory.wf_cons _ _).mp h
    unfold Memory.writeCell
    split
    · rename_i hak
      split
      · exact h
      · rename_i hv
        refine (Memory.wf_cons _ _).mpr ⟨ha, hv, ?_, h⟩
        simp only [List.all_cons, Bool.and_eq_true, decide_eq_true_eq, List.all_eq_true] at hall ⊢
        exact ⟨hak, fun d hd => Nat.lt_trans hak (hall d hd)⟩
    · split
      · split
        · exact hrest
        · rename_i hv
          exact (Memory.wf_cons _ _).mpr ⟨hk, hv, hall, hrest⟩
      · rename_i h1 h2
        refine (Memory.wf_cons _ _).mpr ⟨hk, hx, ?_, ih hrest⟩
        exact Memory.all_writeCell hall (by simp; omega)

/-- A write through the machine's own write keeps the canonical form. -/
theorem Memory.wf_write {m : Memory} (a : Addr4) (v : Word8) (h : m.wf = true) : (m.write a v).wf = true :=
  Memory.wf_writeCell v a.isLt h

/-- A read after a write to the same place gives the value written. -/
theorem Memory.readCell_writeCell_same {m : Memory} (a : Nat) (v : Word8) (h : m.wf = true) :
    (m.writeCell a v).readCell a = v := by
  induction m with
  | nil => unfold Memory.writeCell; split <;> simp_all [Memory.readCell]
  | cons c rest ih =>
    obtain ⟨k, x⟩ := c
    obtain ⟨hk, hx, hall, hrest⟩ := (Memory.wf_cons _ _).mp h
    unfold Memory.writeCell
    split
    · rename_i hak
      split
      · rename_i hv
        have hka : k ≠ a := by omega
        have hbelow : rest.all (fun d => decide (a < d.1)) = true := by
          simp only [List.all_eq_true, decide_eq_true_eq] at hall ⊢
          exact fun d hd => Nat.lt_trans hak (hall d hd)
        simp [Memory.readCell, hka, Memory.readCell_below hbelow, hv]
      · simp [Memory.readCell]
    · split
      · rename_i h1 h2
        subst h2
        split
        · rename_i hv
          rw [Memory.readCell_below hall, hv]
        · simp [Memory.readCell]
      · rename_i h1 h2
        have hka : k ≠ a := fun e => h2 e.symm
        simp [Memory.readCell, hka, ih hrest]

/-- A write leaves every other place alone. -/
theorem Memory.readCell_writeCell_other {m : Memory} {a a' : Nat} (v : Word8) (hne : a' ≠ a) :
    (m.writeCell a v).readCell a' = m.readCell a' := by
  induction m with
  | nil => unfold Memory.writeCell; split <;> simp [Memory.readCell, Ne.symm hne]
  | cons c rest ih =>
    obtain ⟨k, x⟩ := c
    have hne' : ¬a = a' := fun e => hne e.symm
    unfold Memory.writeCell
    split
    · split <;> simp [Memory.readCell, hne']
    · split
      · rename_i h2
        have hk : ¬k = a' := by omega
        split <;> simp [Memory.readCell, hk]
      · simp [Memory.readCell, ih]

theorem Memory.read_write_same {m : Memory} (a : Addr4) (v : Word8) (h : m.wf = true) :
    (m.write a v).read a = v :=
  Memory.readCell_writeCell_same _ _ h

theorem Memory.read_write_other {m : Memory} {a a' : Addr4} (v : Word8) (hne : a' ≠ a) :
    (m.write a v).read a' = m.read a' :=
  Memory.readCell_writeCell_other v fun h => hne (BitVec.eq_of_toNat_eq h)

/-- Loading keeps the canonical form. -/
theorem Memory.wf_ofImageFrom (k : Nat) (image : List Word8) (h : k + image.length ≤ Config.memWords) :
    (Memory.ofImageFrom k image).wf = true := by
  induction image generalizing k with
  | nil => rfl
  | cons w ws ih =>
    simp only [List.length_cons] at h
    exact Memory.wf_writeCell w (by omega) (ih (k + 1) (by omega))

/-- The memory after reset is in canonical form. -/
theorem reset_mem_wf : State.reset.mem.wf = true := rfl

end Sys2Proof.Machine
end

