-- ==== Sys2Proof/Laws/PerInstr.lean ====
section
/-! SUPPORT. The per-instruction family `TableRow`: the word of an instruction is its row of
spec/opcode_table.json, the row's `match` under the mask 0xF0, with the operand in bits 3 to 0. -/

namespace Sys2Proof.Laws.TableRow

/-- The row's `match` value in spec/opcode_table.json. -/
def rowMatch : Instr → Word8
  | .lda _ => 0x00
  | .add _ => 0x10
  | .sub _ => 0x20
  | .undef0011 _ => 0x30
  | .undef0100 _ => 0x40
  | .undef0101 _ => 0x50
  | .undef0110 _ => 0x60
  | .undef0111 _ => 0x70
  | .undef1000 _ => 0x80
  | .undef1001 _ => 0x90
  | .undef1010 _ => 0xA0
  | .undef1011 _ => 0xB0
  | .undef1100 _ => 0xC0
  | .undef1101 _ => 0xD0
  | .out _ => 0xE0
  | .hlt _ => 0xF0

/-- The low field of an instruction. -/
def low : Instr → Nibble
  | .lda a => a
  | .add a => a
  | .sub a => a
  | .undef0011 x => x
  | .undef0100 x => x
  | .undef0101 x => x
  | .undef0110 x => x
  | .undef0111 x => x
  | .undef1000 x => x
  | .undef1001 x => x
  | .undef1010 x => x
  | .undef1011 x => x
  | .undef1100 x => x
  | .undef1101 x => x
  | .out x => x
  | .hlt x => x

/-- The instruction's word matches its row of the opcode table and carries its operand. -/
def Statement (i : Instr) : Prop := encode i &&& 0xF0 = rowMatch i ∧ addrField (encode i) = low i

theorem lda : ∀ x, Statement (.lda x) := by unfold Statement; decide
theorem add : ∀ x, Statement (.add x) := by unfold Statement; decide
theorem sub : ∀ x, Statement (.sub x) := by unfold Statement; decide
theorem undef0011 : ∀ x, Statement (.undef0011 x) := by unfold Statement; decide
theorem undef0100 : ∀ x, Statement (.undef0100 x) := by unfold Statement; decide
theorem undef0101 : ∀ x, Statement (.undef0101 x) := by unfold Statement; decide
theorem undef0110 : ∀ x, Statement (.undef0110 x) := by unfold Statement; decide
theorem undef0111 : ∀ x, Statement (.undef0111 x) := by unfold Statement; decide
theorem undef1000 : ∀ x, Statement (.undef1000 x) := by unfold Statement; decide
theorem undef1001 : ∀ x, Statement (.undef1001 x) := by unfold Statement; decide
theorem undef1010 : ∀ x, Statement (.undef1010 x) := by unfold Statement; decide
theorem undef1011 : ∀ x, Statement (.undef1011 x) := by unfold Statement; decide
theorem undef1100 : ∀ x, Statement (.undef1100 x) := by unfold Statement; decide
theorem undef1101 : ∀ x, Statement (.undef1101 x) := by unfold Statement; decide
theorem out : ∀ x, Statement (.out x) := by unfold Statement; decide
theorem hlt : ∀ x, Statement (.hlt x) := by unfold Statement; decide

end Sys2Proof.Laws.TableRow
end

