-- ==== Sys2Proof/Laws/State.lean ====
section
/-! SUPPORT. One lemma per field per update of State, true by rfl, so that no proof unfolds a record update; and
the same for `State.advance`. -/

namespace Sys2Proof.Machine

variable (s : State)

/-! ### `State.setPc` -/

@[simp] theorem State.setPc_pc (v : Addr4) : (s.setPc v).pc = v := rfl
@[simp] theorem State.setPc_mar (v : Addr4) : (s.setPc v).mar = s.mar := rfl
@[simp] theorem State.setPc_ir (v : Addr4) : (s.setPc v).ir = s.ir := rfl
@[simp] theorem State.setPc_acc (v : Addr4) : (s.setPc v).acc = s.acc := rfl
@[simp] theorem State.setPc_b (v : Addr4) : (s.setPc v).b = s.b := rfl
@[simp] theorem State.setPc_phase (v : Addr4) : (s.setPc v).phase = s.phase := rfl
@[simp] theorem State.setPc_halted (v : Addr4) : (s.setPc v).halted = s.halted := rfl
@[simp] theorem State.setPc_mem (v : Addr4) : (s.setPc v).mem = s.mem := rfl
@[simp] theorem State.setPc_out (v : Addr4) : (s.setPc v).out = s.out := rfl
@[simp] theorem State.setPc_snapshot (v : Addr4) : (s.setPc v).snapshot = s.snapshot := rfl

/-! ### `State.setMar` -/

@[simp] theorem State.setMar_pc (v : Addr4) : (s.setMar v).pc = s.pc := rfl
@[simp] theorem State.setMar_mar (v : Addr4) : (s.setMar v).mar = v := rfl
@[simp] theorem State.setMar_ir (v : Addr4) : (s.setMar v).ir = s.ir := rfl
@[simp] theorem State.setMar_acc (v : Addr4) : (s.setMar v).acc = s.acc := rfl
@[simp] theorem State.setMar_b (v : Addr4) : (s.setMar v).b = s.b := rfl
@[simp] theorem State.setMar_phase (v : Addr4) : (s.setMar v).phase = s.phase := rfl
@[simp] theorem State.setMar_halted (v : Addr4) : (s.setMar v).halted = s.halted := rfl
@[simp] theorem State.setMar_mem (v : Addr4) : (s.setMar v).mem = s.mem := rfl
@[simp] theorem State.setMar_out (v : Addr4) : (s.setMar v).out = s.out := rfl
@[simp] theorem State.setMar_snapshot (v : Addr4) : (s.setMar v).snapshot = s.snapshot := rfl

/-! ### `State.setIr` -/

@[simp] theorem State.setIr_pc (v : Word8) : (s.setIr v).pc = s.pc := rfl
@[simp] theorem State.setIr_mar (v : Word8) : (s.setIr v).mar = s.mar := rfl
@[simp] theorem State.setIr_ir (v : Word8) : (s.setIr v).ir = v := rfl
@[simp] theorem State.setIr_acc (v : Word8) : (s.setIr v).acc = s.acc := rfl
@[simp] theorem State.setIr_b (v : Word8) : (s.setIr v).b = s.b := rfl
@[simp] theorem State.setIr_phase (v : Word8) : (s.setIr v).phase = s.phase := rfl
@[simp] theorem State.setIr_halted (v : Word8) : (s.setIr v).halted = s.halted := rfl
@[simp] theorem State.setIr_mem (v : Word8) : (s.setIr v).mem = s.mem := rfl
@[simp] theorem State.setIr_out (v : Word8) : (s.setIr v).out = s.out := rfl
@[simp] theorem State.setIr_snapshot (v : Word8) : (s.setIr v).snapshot = s.snapshot := rfl

/-! ### `State.setAcc` -/

@[simp] theorem State.setAcc_pc (v : Word8) : (s.setAcc v).pc = s.pc := rfl
@[simp] theorem State.setAcc_mar (v : Word8) : (s.setAcc v).mar = s.mar := rfl
@[simp] theorem State.setAcc_ir (v : Word8) : (s.setAcc v).ir = s.ir := rfl
@[simp] theorem State.setAcc_acc (v : Word8) : (s.setAcc v).acc = v := rfl
@[simp] theorem State.setAcc_b (v : Word8) : (s.setAcc v).b = s.b := rfl
@[simp] theorem State.setAcc_phase (v : Word8) : (s.setAcc v).phase = s.phase := rfl
@[simp] theorem State.setAcc_halted (v : Word8) : (s.setAcc v).halted = s.halted := rfl
@[simp] theorem State.setAcc_mem (v : Word8) : (s.setAcc v).mem = s.mem := rfl
@[simp] theorem State.setAcc_out (v : Word8) : (s.setAcc v).out = s.out := rfl
@[simp] theorem State.setAcc_snapshot (v : Word8) : (s.setAcc v).snapshot = s.snapshot := rfl

/-! ### `State.setB` -/

@[simp] theorem State.setB_pc (v : Word8) : (s.setB v).pc = s.pc := rfl
@[simp] theorem State.setB_mar (v : Word8) : (s.setB v).mar = s.mar := rfl
@[simp] theorem State.setB_ir (v : Word8) : (s.setB v).ir = s.ir := rfl
@[simp] theorem State.setB_acc (v : Word8) : (s.setB v).acc = s.acc := rfl
@[simp] theorem State.setB_b (v : Word8) : (s.setB v).b = v := rfl
@[simp] theorem State.setB_phase (v : Word8) : (s.setB v).phase = s.phase := rfl
@[simp] theorem State.setB_halted (v : Word8) : (s.setB v).halted = s.halted := rfl
@[simp] theorem State.setB_mem (v : Word8) : (s.setB v).mem = s.mem := rfl
@[simp] theorem State.setB_out (v : Word8) : (s.setB v).out = s.out := rfl
@[simp] theorem State.setB_snapshot (v : Word8) : (s.setB v).snapshot = s.snapshot := rfl

/-! ### `State.setPhase` -/

@[simp] theorem State.setPhase_pc (p : Phase) : (s.setPhase p).pc = s.pc := rfl
@[simp] theorem State.setPhase_mar (p : Phase) : (s.setPhase p).mar = s.mar := rfl
@[simp] theorem State.setPhase_ir (p : Phase) : (s.setPhase p).ir = s.ir := rfl
@[simp] theorem State.setPhase_acc (p : Phase) : (s.setPhase p).acc = s.acc := rfl
@[simp] theorem State.setPhase_b (p : Phase) : (s.setPhase p).b = s.b := rfl
@[simp] theorem State.setPhase_phase (p : Phase) : (s.setPhase p).phase = p := rfl
@[simp] theorem State.setPhase_halted (p : Phase) : (s.setPhase p).halted = s.halted := rfl
@[simp] theorem State.setPhase_mem (p : Phase) : (s.setPhase p).mem = s.mem := rfl
@[simp] theorem State.setPhase_out (p : Phase) : (s.setPhase p).out = s.out := rfl
@[simp] theorem State.setPhase_snapshot (p : Phase) : (s.setPhase p).snapshot = s.snapshot := rfl

/-! ### `State.setMem` -/

@[simp] theorem State.setMem_pc (m : Memory) : (s.setMem m).pc = s.pc := rfl
@[simp] theorem State.setMem_mar (m : Memory) : (s.setMem m).mar = s.mar := rfl
@[simp] theorem State.setMem_ir (m : Memory) : (s.setMem m).ir = s.ir := rfl
@[simp] theorem State.setMem_acc (m : Memory) : (s.setMem m).acc = s.acc := rfl
@[simp] theorem State.setMem_b (m : Memory) : (s.setMem m).b = s.b := rfl
@[simp] theorem State.setMem_phase (m : Memory) : (s.setMem m).phase = s.phase := rfl
@[simp] theorem State.setMem_halted (m : Memory) : (s.setMem m).halted = s.halted := rfl
@[simp] theorem State.setMem_mem (m : Memory) : (s.setMem m).mem = m := rfl
@[simp] theorem State.setMem_out (m : Memory) : (s.setMem m).out = s.out := rfl
@[simp] theorem State.setMem_snapshot (m : Memory) : (s.setMem m).snapshot = s.snapshot := rfl

/-! ### `State.emit` -/

@[simp] theorem State.emit_pc (v : Word8) : (s.emit v).pc = s.pc := rfl
@[simp] theorem State.emit_mar (v : Word8) : (s.emit v).mar = s.mar := rfl
@[simp] theorem State.emit_ir (v : Word8) : (s.emit v).ir = s.ir := rfl
@[simp] theorem State.emit_acc (v : Word8) : (s.emit v).acc = s.acc := rfl
@[simp] theorem State.emit_b (v : Word8) : (s.emit v).b = s.b := rfl
@[simp] theorem State.emit_phase (v : Word8) : (s.emit v).phase = s.phase := rfl
@[simp] theorem State.emit_halted (v : Word8) : (s.emit v).halted = s.halted := rfl
@[simp] theorem State.emit_mem (v : Word8) : (s.emit v).mem = s.mem := rfl
@[simp] theorem State.emit_out (v : Word8) : (s.emit v).out = s.out ++ [v] := rfl
@[simp] theorem State.emit_snapshot (v : Word8) : (s.emit v).snapshot = s.snapshot := rfl

/-! ### `State.masterReset` -/

@[simp] theorem State.masterReset_pc : s.masterReset.pc = 0 := rfl
@[simp] theorem State.masterReset_mar : s.masterReset.mar = 0 := rfl
@[simp] theorem State.masterReset_ir : s.masterReset.ir = 0 := rfl
@[simp] theorem State.masterReset_acc : s.masterReset.acc = 0 := rfl
@[simp] theorem State.masterReset_b : s.masterReset.b = 0 := rfl
@[simp] theorem State.masterReset_phase : s.masterReset.phase = .address := rfl
@[simp] theorem State.masterReset_halted : s.masterReset.halted = s.halted := rfl
@[simp] theorem State.masterReset_mem : s.masterReset.mem = s.mem := rfl
@[simp] theorem State.masterReset_out : s.masterReset.out = s.out := rfl
@[simp] theorem State.masterReset_snapshot : s.masterReset.snapshot = s.snapshot := rfl

/-! ### `State.halt` -/

@[simp] theorem State.halt_pc : s.halt.pc = 0 := rfl
@[simp] theorem State.halt_mar : s.halt.mar = 0 := rfl
@[simp] theorem State.halt_ir : s.halt.ir = 0 := rfl
@[simp] theorem State.halt_acc : s.halt.acc = 0 := rfl
@[simp] theorem State.halt_b : s.halt.b = 0 := rfl
@[simp] theorem State.halt_phase : s.halt.phase = .address := rfl
@[simp] theorem State.halt_halted : s.halt.halted = true := rfl
@[simp] theorem State.halt_mem : s.halt.mem = s.mem := rfl
@[simp] theorem State.halt_out : s.halt.out = s.out := rfl
@[simp] theorem State.halt_snapshot : s.halt.snapshot = some s.toSnapshot := rfl

/-! ### `State.rst` -/

@[simp] theorem State.rst_pc : s.rst.pc = 0 := rfl
@[simp] theorem State.rst_mar : s.rst.mar = 0 := rfl
@[simp] theorem State.rst_ir : s.rst.ir = 0 := rfl
@[simp] theorem State.rst_acc : s.rst.acc = 0 := rfl
@[simp] theorem State.rst_b : s.rst.b = 0 := rfl
@[simp] theorem State.rst_phase : s.rst.phase = .address := rfl
@[simp] theorem State.rst_halted : s.rst.halted = false := rfl
@[simp] theorem State.rst_mem : s.rst.mem = s.mem := rfl
@[simp] theorem State.rst_out : s.rst.out = [] := rfl
@[simp] theorem State.rst_snapshot : s.rst.snapshot = none := rfl

/-! ### `State.advance`: only the phase moves, and only while not halted -/

@[simp] theorem State.advance_pc : s.advance.pc = s.pc := by
  unfold State.advance; split <;> rfl
@[simp] theorem State.advance_mar : s.advance.mar = s.mar := by
  unfold State.advance; split <;> rfl
@[simp] theorem State.advance_ir : s.advance.ir = s.ir := by
  unfold State.advance; split <;> rfl
@[simp] theorem State.advance_acc : s.advance.acc = s.acc := by
  unfold State.advance; split <;> rfl
@[simp] theorem State.advance_b : s.advance.b = s.b := by
  unfold State.advance; split <;> rfl
@[simp] theorem State.advance_phase :
    s.advance.phase = if s.halted then s.phase else s.phase.next := by
  unfold State.advance; split <;> simp_all
@[simp] theorem State.advance_halted : s.advance.halted = s.halted := by
  unfold State.advance; split <;> rfl
@[simp] theorem State.advance_mem : s.advance.mem = s.mem := by
  unfold State.advance; split <;> rfl
@[simp] theorem State.advance_out : s.advance.out = s.out := by
  unfold State.advance; split <;> rfl
@[simp] theorem State.advance_snapshot : s.advance.snapshot = s.snapshot := by
  unfold State.advance; split <;> rfl

/-- A running core advances by one phase. -/
theorem State.advance_of_running (h : s.halted = false) : s.advance = s.setPhase s.phase.next := by
  simp [State.advance, h]

/-- A halted core does not advance. -/
theorem State.advance_of_halted (h : s.halted = true) : s.advance = s := by
  simp [State.advance, h]

end Sys2Proof.Machine
end

