-- ==== Sys2Proof/Laws/Sequencer.lean ====
section
/-! SUPPORT. What a clock edge, an instruction and a step can do, said once. -/

namespace Sys2Proof.Machine

variable {s : State} (m : MicroOps)

/-! ### One edge, by phase -/

/-- A halted core takes no step. -/
theorem State.edgeWith_halted (h : s.halted = true) : s.edgeWith m = s := by
  simp [State.edgeWith, h]

theorem State.edgeWith_address (h : s.halted = false) (hp : s.phase = .address) :
    s.edgeWith m = (s.setMar s.pc).setPhase .increment := by
  simp [State.edgeWith, State.addressOp, State.advance, h, hp, Phase.next]

theorem State.edgeWith_increment (h : s.halted = false) (hp : s.phase = .increment) :
    s.edgeWith m = (s.setPc (s.pc + 1)).setPhase .fetch := by
  simp [State.edgeWith, State.incrementOp, State.advance, h, hp, Phase.next]

theorem State.edgeWith_fetch (h : s.halted = false) (hp : s.phase = .fetch) :
    s.edgeWith m = (s.setIr (s.mem.read s.mar)).setPhase .exec1 := by
  simp [State.edgeWith, State.fetchOp, State.advance, h, hp, Phase.next]

theorem State.edgeWith_exec1 (h : s.halted = false) (hp : s.phase = .exec1) :
    s.edgeWith m = (m.exec1 s).advance := by
  simp [State.edgeWith, h, hp]

theorem State.edgeWith_exec2 (h : s.halted = false) (hp : s.phase = .exec2) :
    s.edgeWith m = (m.exec2 s).advance := by
  simp [State.edgeWith, h, hp]

theorem State.edgeWith_exec3 (h : s.halted = false) (hp : s.phase = .exec3) :
    s.edgeWith m = (m.exec3 s).advance := by
  simp [State.edgeWith, h, hp]

/-- Before the execute phases the instruction makes no difference: the first edges of any two instructions are
the same. -/
theorem State.edgeWith_common (m m' : MicroOps)
    (hp : s.phase = .address ∨ s.phase = .increment ∨ s.phase = .fetch) :
    s.edgeWith m = s.edgeWith m' := by
  rcases hp with hp | hp | hp <;> simp [State.edgeWith, hp]

/-! ### Several edges -/

@[simp] theorem State.edgesWith_zero : s.edgesWith m 0 = s := rfl

theorem State.edgesWith_succ (n : Nat) : s.edgesWith m (n + 1) = (s.edgeWith m).edgesWith m n := rfl

/-- A halted core takes no step, however many edges pass. -/
theorem State.edgesWith_halted (h : s.halted = true) (n : Nat) : s.edgesWith m n = s := by
  induction n with
  | zero => rfl
  | succ n ih => rw [State.edgesWith_succ, State.edgeWith_halted m h, ih]

@[simp] theorem State.ticks_zero : s.ticks 0 = s := rfl

theorem State.ticks_succ (n : Nat) : s.ticks (n + 1) = s.tick.ticks n := rfl

theorem State.ticks_add (n k : Nat) (s : State) : s.ticks (n + k) = (s.ticks n).ticks k := by
  induction n generalizing s with
  | zero => simp
  | succ n ih => rw [Nat.succ_add, State.ticks_succ, State.ticks_succ, ih]

/-! ### The instruction and the step -/

/-- Every meaning is the shared form over the instruction's own micro-operations. -/
theorem exec_eq (i : Instr) (s : State) :
    exec i s = .next (s.edgesWith (microOps i) s.phase.edgesLeft) := by
  cases i <;> rfl

theorem step_eq (s : State) :
    step s = .next (s.edgesWith (microOps s.currentInstr) s.phase.edgesLeft) :=
  exec_eq _ _

/-- What the micro-operations of any instruction can do: each of the three leaves PC, IR, the phase and the memory
alone, or is the halt. -/
theorem microOps_exec1_cases (i : Instr) (s : State) :
    (∃ addr, (microOps i).exec1 s = s.setMar addr) ∨ (microOps i).exec1 s = s.emit s.acc ∨
      (microOps i).exec1 s = s.halt ∨ (microOps i).exec1 s = s := by
  cases i with
  | lda a => exact .inl ⟨a, rfl⟩
  | add a => exact .inl ⟨a, rfl⟩
  | sub a => exact .inl ⟨a, rfl⟩
  | out _ => exact .inr (.inl rfl)
  | hlt _ => exact .inr (.inr (.inl rfl))
  | undef0011 _ => exact .inr (.inr (.inr rfl))
  | undef0100 _ => exact .inr (.inr (.inr rfl))
  | undef0101 _ => exact .inr (.inr (.inr rfl))
  | undef0110 _ => exact .inr (.inr (.inr rfl))
  | undef0111 _ => exact .inr (.inr (.inr rfl))
  | undef1000 _ => exact .inr (.inr (.inr rfl))
  | undef1001 _ => exact .inr (.inr (.inr rfl))
  | undef1010 _ => exact .inr (.inr (.inr rfl))
  | undef1011 _ => exact .inr (.inr (.inr rfl))
  | undef1100 _ => exact .inr (.inr (.inr rfl))
  | undef1101 _ => exact .inr (.inr (.inr rfl))

theorem microOps_exec2_cases (i : Instr) (s : State) :
    (microOps i).exec2 s = s.setAcc (s.mem.read s.mar) ∨ (microOps i).exec2 s = s.setB (s.mem.read s.mar) ∨
      (microOps i).exec2 s = s := by
  cases i with
  | lda _ => exact .inl rfl
  | add _ => exact .inr (.inl rfl)
  | sub _ => exact .inr (.inl rfl)
  | out _ => exact .inr (.inr rfl)
  | hlt _ => exact .inr (.inr rfl)
  | undef0011 _ => exact .inr (.inr rfl)
  | undef0100 _ => exact .inr (.inr rfl)
  | undef0101 _ => exact .inr (.inr rfl)
  | undef0110 _ => exact .inr (.inr rfl)
  | undef0111 _ => exact .inr (.inr rfl)
  | undef1000 _ => exact .inr (.inr rfl)
  | undef1001 _ => exact .inr (.inr rfl)
  | undef1010 _ => exact .inr (.inr rfl)
  | undef1011 _ => exact .inr (.inr rfl)
  | undef1100 _ => exact .inr (.inr rfl)
  | undef1101 _ => exact .inr (.inr rfl)

theorem microOps_exec3_cases (i : Instr) (s : State) :
    (∃ su, (microOps i).exec3 s = s.setAcc (alu s.acc s.b su)) ∨ (microOps i).exec3 s = s := by
  cases i with
  | lda _ => exact .inr rfl
  | add _ => exact .inl ⟨false, rfl⟩
  | sub _ => exact .inl ⟨true, rfl⟩
  | out _ => exact .inr rfl
  | hlt _ => exact .inr rfl
  | undef0011 _ => exact .inr rfl
  | undef0100 _ => exact .inr rfl
  | undef0101 _ => exact .inr rfl
  | undef0110 _ => exact .inr rfl
  | undef0111 _ => exact .inr rfl
  | undef1000 _ => exact .inr rfl
  | undef1001 _ => exact .inr rfl
  | undef1010 _ => exact .inr rfl
  | undef1011 _ => exact .inr rfl
  | undef1100 _ => exact .inr rfl
  | undef1101 _ => exact .inr rfl

/-- Everything one edge of an instruction can do. -/
theorem State.edgeWith_cases (i : Instr) (s : State) :
    (s.halted = true ∧ s.edgeWith (microOps i) = s) ∨
    s.halted = false ∧
      ((s.phase = .address ∧ s.edgeWith (microOps i) = (s.setMar s.pc).setPhase .increment) ∨
       (s.phase = .increment ∧ s.edgeWith (microOps i) = (s.setPc (s.pc + 1)).setPhase .fetch) ∨
       (s.phase = .fetch ∧ s.edgeWith (microOps i) = (s.setIr (s.mem.read s.mar)).setPhase .exec1) ∨
       (s.phase = .exec1 ∧
         ((∃ addr, s.edgeWith (microOps i) = (s.setMar addr).setPhase .exec2) ∨
          s.edgeWith (microOps i) = (s.emit s.acc).setPhase .exec2 ∨
          s.edgeWith (microOps i) = s.halt ∨
          s.edgeWith (microOps i) = s.setPhase .exec2)) ∨
       (s.phase = .exec2 ∧
         (s.edgeWith (microOps i) = (s.setAcc (s.mem.read s.mar)).setPhase .exec3 ∨
          s.edgeWith (microOps i) = (s.setB (s.mem.read s.mar)).setPhase .exec3 ∨
          s.edgeWith (microOps i) = s.setPhase .exec3)) ∨
       (s.phase = .exec3 ∧
         ((∃ su, s.edgeWith (microOps i) = (s.setAcc (alu s.acc s.b su)).setPhase .address) ∨
          s.edgeWith (microOps i) = s.setPhase .address))) := by
  rcases hh : s.halted with _ | _
  · refine .inr ⟨rfl, ?_⟩
    rcases hp : s.phase with _ | _ | _ | _ | _ | _
    · exact .inl ⟨rfl, State.edgeWith_address _ hh hp⟩
    · exact .inr (.inl ⟨rfl, State.edgeWith_increment _ hh hp⟩)
    · exact .inr (.inr (.inl ⟨rfl, State.edgeWith_fetch _ hh hp⟩))
    · refine .inr (.inr (.inr (.inl ⟨rfl, ?_⟩)))
      rw [State.edgeWith_exec1 _ hh hp]
      rcases microOps_exec1_cases i s with ⟨a, h⟩ | h | h | h
      · exact .inl ⟨a, by simp [h, hh, hp, State.advance, Phase.next]⟩
      all_goals simp [h, hh, hp, State.advance, Phase.next]
    · refine .inr (.inr (.inr (.inr (.inl ⟨rfl, ?_⟩))))
      rw [State.edgeWith_exec2 _ hh hp]
      rcases microOps_exec2_cases i s with h | h | h <;> simp [h, hh, hp, State.advance, Phase.next]
    · refine .inr (.inr (.inr (.inr (.inr ⟨rfl, ?_⟩))))
      rw [State.edgeWith_exec3 _ hh hp]
      rcases microOps_exec3_cases i s with ⟨su, h⟩ | h
      · exact .inl ⟨su, by simp [h, hh, hp, State.advance, Phase.next]⟩
      · simp [h, hh, hp, State.advance, Phase.next]
  · exact .inl ⟨rfl, State.edgeWith_halted _ hh⟩

/-- No edge of an instruction writes memory (spec/20_memory.md rule R35). -/
@[simp] theorem State.edgeWith_mem (i : Instr) (s : State) : (s.edgeWith (microOps i)).mem = s.mem := by
  rcases s.edgeWith_cases i with ⟨-, h⟩ | ⟨-, h⟩
  · rw [h]
  · rcases h with ⟨-, h⟩ | ⟨-, h⟩ | ⟨-, h⟩ | ⟨-, ⟨_, h⟩ | h | h | h⟩ | ⟨-, h | h | h⟩ | ⟨-, ⟨_, h⟩ | h⟩ <;>
      rw [h] <;> simp

/-- The micro-operations of an opcode class, as the table of rule R86 lists them. -/
def classOps (c : OpClass) (addr : Addr4) : MicroOps :=
  match c with
  | .lda => ldaOps addr
  | .add => addOps addr
  | .sub => subOps addr
  | .out => outOps 0
  | .hlt => hltOps 0
  | .undef => MicroOps.none

/-- The micro-operations of a word depend on its opcode class and its operand field. -/
theorem microOps_decode (w : Word8) :
    microOps (decode w) = classOps (OpClass.ofField (opField w)) (addrField w) := by
  have cases16 : ∀ x : Nibble, x = 0 ∨ x = 1 ∨ x = 2 ∨ x = 3 ∨ x = 4 ∨ x = 5 ∨ x = 6 ∨ x = 7 ∨
      x = 8 ∨ x = 9 ∨ x = 10 ∨ x = 11 ∨ x = 12 ∨ x = 13 ∨ x = 14 ∨ x = 15 := by decide
  rcases cases16 (opField w) with h | h | h | h | h | h | h | h | h | h | h | h | h | h | h | h <;>
    · unfold decode
      rw [h]
      rfl

/-- One edge of the core is an edge of the class of the word in IR. -/
theorem State.tick_eq (s : State) : s.tick = s.edgeWith (classOps s.opClass (addrField s.ir)) := by
  rw [State.tick, microOps_decode, State.opClass]

end Sys2Proof.Machine
end

