-- ==== Sys2Proof/Laws/Run.lean ====
section
/-! SUPPORT. Runs of steps and stretches of edges, with their inductions packaged once. -/

namespace Sys2Proof.Machine

@[simp] theorem run_zero (s : State) : core.run 0 s = .next s := rfl

/-- A run goes on from the state its first step leaves. -/
theorem run_succ_of_step {s t : State} (h : step s = .next t) (n : Nat) :
    core.run (n + 1) s = core.run n t := by
  have h' : core.step s = .next t := h
  simp [Host.Core.run, h']

/-- Every run answers a next state, since every step does. -/
theorem run_exists (n : Nat) (s : State) : ∃ t : State, core.run n s = .next t := by
  induction n generalizing s with
  | zero => exact ⟨s, rfl⟩
  | succ n ih =>
    obtain ⟨t, ht⟩ := ih (s.edgesWith (microOps s.currentInstr) s.phase.edgesLeft)
    exact ⟨t, by rw [run_succ_of_step (step_eq s), ht]⟩

/-- What every step keeps, every run keeps. -/
theorem run_induction {P : State → Prop} (hstep : ∀ s t, step s = .next t → P s → P t)
    {n : Nat} {s t : State} (h : core.run n s = .next t) (hs : P s) : P t := by
  induction n generalizing s with
  | zero => cases h; exact hs
  | succ n ih =>
    rw [run_succ_of_step (step_eq s)] at h
    exact ih h (hstep _ _ (step_eq s) hs)

/-- What every edge of an instruction keeps, a stretch of its edges keeps. -/
theorem edgesWith_induction {P : State → Prop} {m : MicroOps} (hedge : ∀ s, P s → P (s.edgeWith m))
    (n : Nat) {s : State} (hs : P s) : P (s.edgesWith m n) := by
  induction n generalizing s with
  | zero => exact hs
  | succ n ih => exact ih (hedge s hs)

/-- What every edge of every instruction keeps, a step keeps. -/
theorem step_induction {P : State → Prop} (hedge : ∀ i s, P s → P (State.edgeWith (microOps i) s))
    {s t : State} (h : step s = .next t) (hs : P s) : P t := by
  rw [step_eq] at h
  cases h
  exact edgesWith_induction (hedge _) _ hs

/-- A halted core takes no step, however many edges pass without `rst`. -/
theorem State.ticks_halted {s : State} (h : s.halted = true) (n : Nat) : s.ticks n = s := by
  induction n with
  | zero => rfl
  | succ n ih => rw [State.ticks_succ, State.tick, State.edgeWith_halted _ h, ih]

/-- The micro-operations of an execute phase leave IR alone, unless they halt. -/
theorem State.edgeWith_exec_ir (i : Instr) {s : State}
    (hp : s.phase = .exec1 ∨ s.phase = .exec2 ∨ s.phase = .exec3)
    (h : (s.edgeWith (microOps i)).halted = false) :
    (s.edgeWith (microOps i)).ir = s.ir ∧ (s.edgeWith (microOps i)).phase = s.phase.next := by
  rcases s.edgeWith_cases i with ⟨hh, e⟩ | ⟨-, c⟩
  · rw [e, hh] at h; cases h
  · rcases hp with hp | hp | hp <;> simp only [hp, reduceCtorEq, false_and, false_or, true_and, or_false] at c
    · rcases c with ⟨_, e⟩ | e | e | e <;> rw [e] at h ⊢ <;> simp_all [Phase.next]
    · rcases c with e | e | e <;> rw [e] <;> simp [hp, Phase.next]
    · rcases c with ⟨_, e⟩ | e <;> rw [e] <;> simp [hp, Phase.next]

end Sys2Proof.Machine
end

