-- ==== Sys2Proof/Tests/Slice0.lean ====
section
/-! SUPPORT. The model's own tests, and a witness for the hypotheses of each statement.

Every expected value is the spec's: the word encodings of spec/30_encoding.md, the vectors L1 and L2 of
spec/95_test_vectors.md, the corner tables of spec/40_alu.md and spec/43_output_halt.md. -/

namespace Sys2Proof.Tests

open Sys2Proof Sys2Proof.Machine

/-! ### Helpers -/

/-- A running state at the start of an instruction. -/
def start (pc mar : Addr4) (ir acc b : Word8) (mem : Memory) : State :=
  { State.reset with pc := pc, mar := mar, ir := ir, acc := acc, b := b, mem := mem }

/-- The registers, as a row of a phase table. -/
def row (s : State) : Addr4 × Addr4 × Word8 × Word8 × Word8 := (s.pc, s.mar, s.ir, s.acc, s.b)

/-- The rows after each of the first `n` phases. -/
def rows (n : Nat) (s : State) : List (Addr4 × Addr4 × Word8 × Word8 × Word8) :=
  (List.range n).map fun k => row (s.ticks (k + 1))

/-- The state an outcome goes on with. -/
def after : Host.Outcome State Fault Refusal → Option State
  | .next t => some t
  | .fault _ => none
  | .refused _ => none

/-! ### WellFormed: an ill-formed term for each check -/

theorem test_assembles_refuses_undefined : (Instr.undef0011 0).assembles = false := by decide
theorem test_assembles_refuses_out_low_nibble : (Instr.out 7).assembles = false := by decide
theorem test_assembles_refuses_hlt_low_nibble : (Instr.hlt 5).assembles = false := by decide
theorem test_assembles_accepts : (Instr.lda 9).assembles = true ∧ (Instr.out 0).assembles = true := by decide
theorem test_image_line_refuses_seven_chars : imageLineWf ['0', '0', '0', '0', '1', '1', '1'] = false := by decide
theorem test_image_line_refuses_other_char :
    imageLineWf ['0', '0', '0', '0', '1', '1', '1', '2'] = false := by decide
theorem test_image_lines_refuse_seventeen :
    imageLinesWf (List.replicate 17 (List.replicate 8 '0')) = false := by decide
theorem test_image_refuses_seventeen_words : imageWf (List.replicate 17 0) = false := by decide
theorem test_memory_wf_refuses_unsorted : Memory.wf [(3, 1), (2, 1)] = false := by decide
theorem test_memory_wf_refuses_repeat : Memory.wf [(2, 1), (2, 3)] = false := by decide
theorem test_memory_wf_refuses_unlisted_value : Memory.wf [(2, 0)] = false := by decide
theorem test_memory_wf_refuses_address_16 : Memory.wf [(16, 1)] = false := by decide
theorem test_memory_wf_accepts : Memory.wf [(0, 0x0F), (15, 5)] = true := by decide

/-! ### Decoding: each row's word written out bit by bit from its encoding (rules R49, R50, R71) -/

theorem test_decode_lda : decode 0b00001001 = .lda 0x9 := by decide
theorem test_decode_add : decode 0b00011010 = .add 0xA := by decide
theorem test_decode_sub : decode 0b00101111 = .sub 0xF := by decide
theorem test_decode_undefined :
    decode 0b00111010 = .undef0011 0xA ∧ decode 0b01000001 = .undef0100 1 ∧ decode 0b01010010 = .undef0101 2 ∧
    decode 0b01100011 = .undef0110 3 ∧ decode 0b01111111 = .undef0111 0xF ∧ decode 0b10000100 = .undef1000 4 ∧
    decode 0b10010101 = .undef1001 5 ∧ decode 0b10100110 = .undef1010 6 ∧ decode 0b10110111 = .undef1011 7 ∧
    decode 0b11000000 = .undef1100 0 ∧ decode 0b11011111 = .undef1101 0xF := by decide
theorem test_decode_out : decode 0b11100111 = .out 7 := by decide
theorem test_decode_hlt : decode 0b11110101 = .hlt 5 := by decide
theorem test_decode_empty_stream : (decodeStream []).toOption = none := by decide
theorem test_decode_stream_leaves_the_rest :
    (decodeStream [0x1F, 0xE0]).toOption = some (.add 0xF, [0xE0]) := by decide
theorem test_decode_table_word : decodeTableWord 8 0x2E = some (.sub 0xE) := by decide

/-! ### The phase tables of spec/95_test_vectors.md section 2.3 -/

/-- L2-L1: LDA at address 5. -/
theorem test_lda_phases :
    rows 6 (start 5 4 0xE0 0x33 0x44 [(5, 0x0E), (14, 0x9C)]) =
      [(5, 5, 0xE0, 0x33, 0x44), (6, 5, 0xE0, 0x33, 0x44), (6, 5, 0x0E, 0x33, 0x44),
       (6, 14, 0x0E, 0x33, 0x44), (6, 14, 0x0E, 0x9C, 0x44), (6, 14, 0x0E, 0x9C, 0x44)] := by decide

/-- L2-A1: ADD at address 5. -/
theorem test_add_phases :
    rows 6 (start 5 4 0xE0 0x07 0x00 [(5, 0x1F), (15, 0x05)]) =
      [(5, 5, 0xE0, 0x07, 0x00), (6, 5, 0xE0, 0x07, 0x00), (6, 5, 0x1F, 0x07, 0x00),
       (6, 15, 0x1F, 0x07, 0x00), (6, 15, 0x1F, 0x07, 0x05), (6, 15, 0x1F, 0x0C, 0x05)] := by decide

/-- L2-B1: SUB at address 15, with the PC wrap. -/
theorem test_sub_phases :
    rows 6 (start 15 14 0x1F 0x03 0x09 [(14, 0x05), (15, 0x2E)]) =
      [(15, 15, 0x1F, 0x03, 0x09), (0, 15, 0x1F, 0x03, 0x09), (0, 15, 0x2E, 0x03, 0x09),
       (0, 14, 0x2E, 0x03, 0x09), (0, 14, 0x2E, 0x03, 0x05), (0, 14, 0x2E, 0xFE, 0x05)] := by decide

/-- L2-O1: OUT at address 2, registers and trace. -/
theorem test_out_phases :
    (rows 6 (start 2 15 0x1F 0x0C 0x05 [(2, 0xE0)]) =
      [(2, 2, 0x1F, 0x0C, 0x05), (3, 2, 0x1F, 0x0C, 0x05), (3, 2, 0xE0, 0x0C, 0x05),
       (3, 2, 0xE0, 0x0C, 0x05), (3, 2, 0xE0, 0x0C, 0x05), (3, 2, 0xE0, 0x0C, 0x05)]) ∧
    (List.range 6).map (fun k => ((start 2 15 0x1F 0x0C 0x05 [(2, 0xE0)]).ticks (k + 1)).out) =
      [[], [], [], [0x0C], [0x0C], [0x0C]] := by decide

/-- L2-H1: HLT at address 3. -/
theorem test_hlt_phases :
    rows 4 (start 3 2 0xE0 0x0C 0x05 [(3, 0xF0)]) =
      [(3, 3, 0xE0, 0x0C, 0x05), (4, 3, 0xE0, 0x0C, 0x05), (4, 3, 0xF0, 0x0C, 0x05), (0, 0, 0, 0, 0)] := by decide

/-- L2-H1: the halt snapshot, the flag and the phase after the halt. -/
theorem test_hlt_snapshot :
    (after (step (start 3 2 0xE0 0x0C 0x05 [(3, 0xF0)]))).map (fun t => (t.halted, t.phase, t.snapshot)) =
      some (true, .address, some { pc := 4, mar := 3, ir := 0xF0, acc := 0x0C, b := 0x05 }) := by decide

/-- L2-N1: an undefined opcode from reset. -/
theorem test_undefined_step :
    (after (step (State.reset.withFetchWord 8 0x3A))).map (fun t => (row t, t.phase)) =
      some ((1, 0, 0x3A, 0, 0), .address) := by decide

/-- Rule R54: OUT with low nibble 7 behaves as OUT (L2-O4). -/
theorem test_out_low_nibble :
    (after (step (start 2 15 0x1F 0x0C 0x05 [(2, 0xE7)]))).map (fun t => t.out) = some [0x0C] := by decide

/-- L2-A2: ADD wraps. -/
theorem test_add_wraps :
    (after (step (start 0 0 0 0xFF 0 [(0, 0x1F), (15, 0x01)]))).map (fun t => (t.acc, t.b)) =
      some (0x00, 0x01) := by decide

/-- L2-A3: ADD of its own word, at address 1. -/
theorem test_add_self_reference :
    (after (step (start 1 0 0 0 0 [(1, 0x11)]))).map (fun t => (t.acc, t.b)) = some (0x11, 0x11) := by decide

/-- L2-B4: SUB of 1 from -128. -/
theorem test_sub_signed_overflow :
    (after (step (start 0 0 0 0x80 0 [(0, 0x2F), (15, 0x01)]))).map (fun t => t.acc) = some 0x7F := by decide

/-- Rule R96: LDA of its own address loads its own word. -/
theorem test_lda_self_reference :
    (after (step (start 9 0 0 0 0 [(9, 0x09)]))).map (fun t => t.acc) = some 0x09 := by decide

/-- L2-S11: no step while halted, even in phase Exec2. -/
theorem test_halted_no_step :
    (State.reset.setPhase .exec2).halt.tick = (State.reset.setPhase .exec2).halt ∧
    { State.reset with phase := .exec2, halted := true }.tick =
      { State.reset with phase := .exec2, halted := true } := by decide

/-- L2-S3, at an edge where HLT would halt: `rst` takes precedence. -/
theorem test_rst_overrides_hlt :
    ({ start 4 3 0xF0 0x0C 5 [(3, 0xF0)] with phase := .exec1, out := [1] }.clockEdge true) =
      start 0 0 0 0 0 [(3, 0xF0)] := by decide

/-- Rule R95: the ports in Exec1 of OUT. -/
theorem test_ports_out :
    { start 3 2 0xE0 0x0C 5 [] with phase := .exec1 }.ports =
      { memAddr := 2, outStb := true, outData := 0x0C, halt := false } := by decide

/-! ### Memory -/

theorem test_memory_write_zero_removes : Memory.write [(2, 7), (3, 1)] 2 0 = [(3, 1)] := by decide
theorem test_memory_write_sorts : Memory.write [(2, 7), (9, 1)] 4 8 = [(2, 7), (4, 8), (9, 1)] := by decide

/-! ### Image and assembler (sections 2.4 and 3, vectors L1 and L2-E) -/

/-- P1: the image of "load and output". -/
theorem test_assemble_p1 :
    (assemble "SET 0xf 0x05\nLDA 0xf\nOUT\nHLT".toList).toOption =
      some [0x0F, 0xE0, 0xF0, 0, 0, 0, 0, 0, 0, 0, 0, 0, 0, 0, 0, 0x05] := by decide
/-- L1-4a: the sequential word lands on the SET word, and wins. -/
theorem test_assemble_collision_sequential_last :
    (assemble "SET 0x0 0x05\nLDA 0x0\nOUT\nHLT".toList).toOption =
      some ([0x00, 0xE0, 0xF0] ++ List.replicate 13 0) := by decide
/-- L1-4b: the SET word is written last, and wins. -/
theorem test_assemble_collision_set_last :
    (assemble "LDA 0x0\nOUT\nHLT\nSET 0x0 0x05".toList).toOption =
      some ([0x05, 0xE0, 0xF0] ++ List.replicate 13 0) := by decide
/-- L2-E5. -/
theorem test_assemble_set :
    (assemble "SET 0x3 0x7f".toList).toOption = some ([0, 0, 0, 0x7F] ++ List.replicate 12 0) := by decide
/-- The error of a refused source. -/
def asmError (text : String) : Option AsmError :=
  match assemble text.toList with
  | .ok _ => none
  | .error e => some e

/-- L2-E6: upper-case hex digits. -/
theorem test_assemble_upper_case_digit : asmError "LDA 0xA" = some .invalidHexDigit := by decide
/-- L2-E7. -/
theorem test_assemble_lower_case_name : asmError "lda 0x1" = some .unknownOpcode := by decide
/-- L2-E8. -/
theorem test_assemble_unknown_name : asmError "NOP" = some .unknownOpcode := by decide
/-- L2-E9: masked to 4 bits. -/
theorem test_assemble_masks :
    (assemble "LDA 0x1f".toList).toOption = some ([0x0F] ++ List.replicate 15 0) := by decide
/-- L2-E10: comments and blank lines are not counted. -/
theorem test_assemble_ignored_lines :
    (assemble "; note\n\n  \nOUT\n".toList).toOption = some ([0xE0] ++ List.replicate 15 0) := by decide
/-- L2-E11: the 17th significant line is ignored, whatever it says. -/
theorem test_assemble_seventeenth_line :
    (assemble ((List.replicate 16 "HLT\n".toList).flatten ++ "NOP".toList)).toOption =
      some (List.replicate 16 0xF0) := by decide
/-- L2-E12. -/
theorem test_assemble_surplus_operand : asmError "OUT 0x3" = some .operandCount := by decide
/-- L2-E13. -/
theorem test_assemble_empty : (assemble []).toOption = some (List.replicate 16 0) := by decide
/-- D17: a `;` after white space does not open a comment. -/
theorem test_assemble_indented_semicolon : asmError " ; note" = some .unknownOpcode := by decide

/-- Log entry 17, the model's choice: outer and repeated white space give no empty token. -/
theorem test_assemble_outer_and_repeated_white_space :
    (assemble " OUT \nLDA   0x9\n".toList).toOption = some ([0xE0, 0x09] ++ List.replicate 14 0) := by decide

/-- Rule R69: the first character is bit 7. -/
theorem test_image_msb_first :
    (parseImage "00001111\n11100000\n".toList).toOption = some [0x0F, 0xE0] := by decide
/-- D14: a line of nine characters is refused. -/
theorem test_image_refuses_long_line : (parseImage "000011110\n".toList).toOption = none := by decide
/-- D14: seventeen lines are refused. -/
theorem test_image_refuses_seventeen_lines :
    (parseImage (List.replicate 17 "00000000\n".toList).flatten).toOption = none := by decide
/-- Rule R127: boot from an image text. -/
theorem test_boot_image :
    (bootImageText "00001111\n".toList).toOption = some (start 0 0 0 0 0 [(0, 0x0F)]) := by decide

/-- L2-O2. -/
theorem test_display :
    display 0xFE = "-2".toList ∧ display 0xE1 = "-31".toList ∧ display 0x0C = "12".toList := by decide
/-- L2-O3: different traces, the same console text. -/
theorem test_console_text : consoleText [0x01, 0x02] = "12".toList ∧ consoleText [0x0C] = "12".toList := by decide

/-- L2-S2. -/
theorem test_one_hot :
    Phase.address.oneHot = 0b000001 ∧ Phase.increment.oneHot = 0b000010 ∧ Phase.fetch.oneHot = 0b000100 ∧
    Phase.exec1.oneHot = 0b001000 ∧ Phase.exec2.oneHot = 0b010000 ∧ Phase.exec3.oneHot = 0b100000 := by decide

/-! ### Witnesses: concrete data meeting the hypotheses of each statement -/

/-- A running state of each phase, executing the word `w`. -/
def inPhase (p : Phase) (w : Word8) : State := { start 6 5 w 0x0C 0x05 [(5, 0x0E), (6, 0x1F)] with phase := p }

/-- CommonPhasesFetchTheWordAtPc, StepRunsTheDecodedInstruction, the result statements of LDA, ADD, SUB, OUT, HLT and
the undefined opcodes, ControlWordDrivesTheSameEdge: a running state in every phase. -/
theorem witness_running_in_every_phase :
    ∀ p : Phase, (inPhase p 0x0E).halted = false ∧ (inPhase p 0x0E).phase = p := by
  intro p; cases p <;> decide

/-- EdgeFollowsTheMicroOperationTable: every class in every execute phase, and a halted state. -/
theorem witness_every_class_in_every_phase :
    ∀ p : Phase,
      ((inPhase p 0x0E).opClass = .lda ∧ (inPhase p 0x1E).opClass = .add ∧ (inPhase p 0x2E).opClass = .sub ∧
        (inPhase p 0xE0).opClass = .out ∧ (inPhase p 0xFF).opClass = .hlt ∧
        (inPhase p 0x30).opClass = .undef ∧ (inPhase p 0xDF).opClass = .undef) ∧
      (inPhase p 0xE0).phase = p ∧ (inPhase p 0xE0).halted = false ∧ (inPhase p 0xF0).halt.halted = true := by
  intro p; cases p <;> decide

/-- UndefinedOpcodesOnlyAdvance, OutputHaltFrame: a member of the list. -/
theorem witness_undefined_member : Instr.undef1101 0xF ∈ [Instr.undef0011 0xF, .undef1101 0xF] := by decide

/-- EachRegisterIsWrittenOnlyInItsPhases: each register does change at an edge of its phase. -/
theorem witness_each_register_changes :
    (inPhase .increment 0).tick.pc ≠ (inPhase .increment 0).pc ∧
    (inPhase .address 0).tick.mar ≠ (inPhase .address 0).mar ∧
    (inPhase .exec1 0x1F).tick.mar ≠ (inPhase .exec1 0x1F).mar ∧
    (inPhase .fetch 0).tick.ir ≠ (inPhase .fetch 0).ir ∧
    (inPhase .exec2 0x05).tick.acc ≠ (inPhase .exec2 0x05).acc ∧
    (inPhase .exec3 0x25).tick.acc ≠ (inPhase .exec3 0x25).acc ∧
    (inPhase .exec2 0x15).tick.b ≠ (inPhase .exec2 0x15).b ∧
    (inPhase .exec1 0xF0).tick.halted ≠ (inPhase .exec1 0xF0).halted ∧
    (inPhase .exec1 0xF0).tick.snapshot ≠ (inPhase .exec1 0xF0).snapshot ∧
    (inPhase .exec1 0xE0).tick.out ≠ (inPhase .exec1 0xE0).out := by decide

/-- StepRunsTheDecodedInstruction: the words the clauses decode. -/
theorem witness_current_words :
    decode ((inPhase .address 0).mem.read (inPhase .address 0).pc) = .add 0xF ∧
    decode ((inPhase .fetch 0).mem.read (inPhase .fetch 0).mar) = .lda 0xE ∧
    decode (inPhase .exec3 0x2E).ir = .sub 0xE := by decide

/-- FetchWordRunsNext, MemoryReadAfterWrite: a well-formed memory, a word and another address. -/
theorem witness_fetch_word :
    (inPhase .exec2 0).mem.wf = true ∧ decodeTableWord 8 0xFF = some (.hlt 0xF) ∧ (15 : Addr4) ≠ 6 := by decide

/-- LoadArithFrame, OutputHaltFrame: each kind of instruction does answer a next state. -/
theorem witness_frames :
    (after (exec (.lda 5) (inPhase .address 0))).isSome = true ∧
    (after (exec (.add 15) (inPhase .exec2 0))).isSome = true ∧
    (after (exec (.sub 0) (inPhase .exec3 0))).isSome = true ∧
    (after (exec (.out 0) (inPhase .exec1 0))).isSome = true ∧
    (after (exec (.undef1000 0) (inPhase .fetch 0))).isSome = true ∧
    (after (exec (.hlt 0) (inPhase .address 0))).isSome = true := by decide

/-- MemoryIsConstantDuringRuns, OutputTraceOnlyGrows: a run of two steps that goes on. -/
theorem witness_run : ∃ t : State, core.run 2 (inPhase .address 0) = .next t := ⟨_, rfl⟩

/-- OutputEventsAreTheStrobedEdges: an OUT at PC, and a state in which the strobe is on. -/
theorem witness_out_at_pc :
    OpClass.ofField (opField ((start 2 0 0 9 0 [(2, 0xEF)]).mem.read 2)) = .out ∧
    (inPhase .exec1 0xE0).ports.outStb = true := by decide

/-- HltTakesFourPhases, OnlyHltLeavesTheRun: a HLT at PC, at both ends of memory. -/
theorem witness_hlt_at_pc :
    (start 0 0 0 0 0 [(0, 0xF0)]).mem.HltAt 0 ∧ (start 15 0 0 0 0 [(15, 0xFF)]).mem.HltAt 15 := by decide

/-- SixPhasesUnlessHlt: no HLT at PC. -/
theorem witness_no_hlt_at_pc : ¬ (start 15 0 0 0 0 [(15, 0xEF)]).mem.HltAt 15 := by decide

/-- HaltedCoreIsQuiescent: a halted state, and edges without `rst`. -/
theorem witness_halted : (inPhase .exec1 0xF0).tick.halted = true ∧ true ∉ [false, false] := by decide

/-- DecodeFollowsTheOpcodeMap: a word of each opcode field at both ends of its range. -/
theorem witness_every_opcode_field :
    ∀ op : Nibble, opField (packWord op 0) = op ∧ opField (packWord op 15) = op := by decide

/-- EveryStepKeepsTheInvariant: a running and a halted state that meet it. -/
theorem witness_inv : (inPhase .exec2 0x0E).Inv ∧ (inPhase .exec1 0xF0).tick.Inv := by decide

/-- EveryEdgeKeepsTheInstructionCoherent: a coherent state in each phase. -/
theorem witness_coherent :
    ∀ k, k < 6 → ((start 5 0 0 7 0 [(5, 0x1F), (15, 0x05)]).ticks k).Coherent := by decide

/-- ResetMeetsTheInvariants: a well-formed memory. -/
theorem witness_wf_memory : Memory.wf [(0, 0xF0), (15, 0x01)] = true := by decide

/-- HaltingCriterion: the first HLT at address 0, at address 15, and an image with none. -/
theorem witness_first_hlt :
    Memory.HltAt [(0, 0xF0)] (BitVec.ofNat 4 0) ∧
    (Memory.HltAt [(15, 0xF5)] (BitVec.ofNat 4 15) ∧
      ∀ k, k < 15 → ¬ Memory.HltAt [(15, 0xF5)] (BitVec.ofNat 4 k)) ∧
    ∀ a : Addr4, ¬ Memory.HltAt [(0, 0x1F), (1, 0xE0), (15, 0x01)] a := by decide

/-- HiddenRegistersNeverReachTheOutput: two states that agree but for MAR, IR and B. -/
theorem witness_same_visible :
    (start 3 0 0 7 0 [(3, 0x1F)]).SameVisible (start 3 9 0xFF 7 0x55 [(3, 0x1F)]) := by decide

/-- LoadedImageReadsBack: images of 16 and of 17 words. -/
theorem witness_image_lengths :
    (List.replicate 16 (0xFF : Word8)).length ≤ 16 ∧ 16 < (List.replicate 17 (0 : Word8)).length := by decide

/-- ImageTextIsExact: an accepted text. -/
theorem witness_image_text : (parseImage (printImage [0x0F, 0x80])).toOption = some [0x0F, 0x80] := by decide

/-- LastStatementWritesOneWord, AssemblerWordsDecode: an instruction statement and a SET statement. -/
theorem witness_statements :
    AsmStmt.instr? (.lda 15) = some (.lda 15) ∧ AsmStmt.instr? (.set 15 0xFF) = none ∧
    (Instr.hlt 0).assembles = true := by decide

/-- DisplayIsTheSignedDecimal: both signs at the boundary. -/
theorem witness_signs : (0x7F : Word8).msb = false ∧ (0x80 : Word8).msb = true := by decide

end Sys2Proof.Tests
end

section
/-! PROOFS. The scope of the model (spec/00_scope.md): every instruction and every step answers a next state. -/

namespace Sys2Proof.Machine

/-- No instruction ends in a fault or a refusal, in a halted state either (rule R110). -/
theorem exec_answers_next (i : Instr) (s : State) : ∃ t, exec i s = .next t := ⟨_, exec_eq i s⟩

/-- Every step is safe (rule R122). -/
theorem step_safe (s : State) : SafeStep s := exec_answers_next s.currentInstr s

end Sys2Proof.Machine

namespace Sys2Proof

open Machine

/-- Settles O11: whatever the instruction, `exec` is a stretch of clock edges, and its outcome is the state after
the last of them; a step is `exec` of the current instruction. -/
theorem everyInstructionAnswersANextState : Obligations.EveryInstructionAnswersANextState :=
  ⟨exec_answers_next, step_safe⟩

end Sys2Proof
end

section
/-! PROOFS. The clock edge as a relation, one constructor per entry of the micro-operation table
(spec/41_sequencer.md rule R86). -/

namespace Sys2Proof.Machine

variable {s t : State}

@[simp] theorem State.setMar_opClass (v : Addr4) : (s.setMar v).opClass = s.opClass := rfl

/-- The classes that read a memory operand are LDA, ADD and SUB. -/
theorem OpClass.readsMemory_iff (c : OpClass) : c.readsMemory = true ↔ c = .lda ∨ c = .add ∨ c = .sub := by
  cases c <;> decide

/-- The edges of rule R86's table with `rst = 0`, each with the phase and the opcode class it belongs to, and the edge
of a halted core, which does nothing (rule R84). -/
inductive State.Edge (s : State) : State → Prop where
  | quiescent (hh : s.halted = true) : Edge s s
  | address (hh : s.halted = false) (hp : s.phase = .address) : Edge s ((s.setMar s.pc).setPhase .increment)
  | increment (hh : s.halted = false) (hp : s.phase = .increment) :
      Edge s ((s.setPc (s.pc + 1)).setPhase .fetch)
  | fetch (hh : s.halted = false) (hp : s.phase = .fetch) :
      Edge s ((s.setIr (s.mem.read s.mar)).setPhase .exec1)
  | operandToMar (hh : s.halted = false) (hp : s.phase = .exec1) (hc : s.opClass.readsMemory = true) :
      Edge s ((s.setMar (addrField s.ir)).setPhase .exec2)
  | emit (hh : s.halted = false) (hp : s.phase = .exec1) (hc : s.opClass = .out) :
      Edge s ((s.emit s.acc).setPhase .exec2)
  | halt (hh : s.halted = false) (hp : s.phase = .exec1) (hc : s.opClass = .hlt) : Edge s s.halt
  | idle1 (hh : s.halted = false) (hp : s.phase = .exec1) (hc : s.opClass = .undef) : Edge s (s.setPhase .exec2)
  | loadAcc (hh : s.halted = false) (hp : s.phase = .exec2) (hc : s.opClass = .lda) :
      Edge s ((s.setAcc (s.mem.read s.mar)).setPhase .exec3)
  | loadB (hh : s.halted = false) (hp : s.phase = .exec2) (hc : s.opClass = .add ∨ s.opClass = .sub) :
      Edge s ((s.setB (s.mem.read s.mar)).setPhase .exec3)
  | idle2 (hh : s.halted = false) (hp : s.phase = .exec2) (hc : s.opClass.readsMemory = false) :
      Edge s (s.setPhase .exec3)
  | addToAcc (hh : s.halted = false) (hp : s.phase = .exec3) (hc : s.opClass = .add) :
      Edge s ((s.setAcc (alu s.acc s.b false)).setPhase .address)
  | subFromAcc (hh : s.halted = false) (hp : s.phase = .exec3) (hc : s.opClass = .sub) :
      Edge s ((s.setAcc (alu s.acc s.b true)).setPhase .address)
  | idle3 (hh : s.halted = false) (hp : s.phase = .exec3) (hc : ¬ (s.opClass = .add ∨ s.opClass = .sub)) :
      Edge s (s.setPhase .address)

/-- An edge that keeps the halt flag and the phase until the sequencer advances is one that ends in the next phase. -/
theorem State.Edge.advance {u : State} {p : Phase} (hu : u.halted = false) (hp : u.phase = p)
    (h : s.Edge (u.setPhase p.next)) : s.Edge u.advance := by
  rwa [State.advance_of_running (s := u) hu, hp]

theorem State.edge_tick_exec1 (hh : s.halted = false) (hp : s.phase = .exec1) : s.Edge s.tick := by
  rw [State.tick_eq, State.edgeWith_exec1 _ hh hp]
  cases hc : s.opClass with
  | lda => exact .advance hh hp (.operandToMar hh hp (by rw [hc]; rfl))
  | add => exact .advance hh hp (.operandToMar hh hp (by rw [hc]; rfl))
  | sub => exact .advance hh hp (.operandToMar hh hp (by rw [hc]; rfl))
  | out => exact .advance hh hp (.emit hh hp hc)
  | hlt => exact State.advance_of_halted (s := s.halt) rfl ▸ .halt hh hp hc
  | undef => exact .advance hh hp (.idle1 hh hp hc)

theorem State.edge_tick_exec2 (hh : s.halted = false) (hp : s.phase = .exec2) : s.Edge s.tick := by
  rw [State.tick_eq, State.edgeWith_exec2 _ hh hp]
  cases hc : s.opClass with
  | lda => exact .advance hh hp (.loadAcc hh hp hc)
  | add => exact .advance hh hp (.loadB hh hp (.inl hc))
  | sub => exact .advance hh hp (.loadB hh hp (.inr hc))
  | out => exact .advance hh hp (.idle2 hh hp (by rw [hc]; rfl))
  | hlt => exact .advance hh hp (.idle2 hh hp (by rw [hc]; rfl))
  | undef => exact .advance hh hp (.idle2 hh hp (by rw [hc]; rfl))

theorem State.edge_tick_exec3 (hh : s.halted = false) (hp : s.phase = .exec3) : s.Edge s.tick := by
  rw [State.tick_eq, State.edgeWith_exec3 _ hh hp]
  cases hc : s.opClass with
  | add => exact .advance hh hp (.addToAcc hh hp hc)
  | sub => exact .advance hh hp (.subFromAcc hh hp hc)
  | lda => exact .advance hh hp (.idle3 hh hp (by simp [hc]))
  | out => exact .advance hh hp (.idle3 hh hp (by simp [hc]))
  | hlt => exact .advance hh hp (.idle3 hh hp (by simp [hc]))
  | undef => exact .advance hh hp (.idle3 hh hp (by simp [hc]))

/-- Every edge of the core is an entry of the table. -/
theorem State.edge_tick (s : State) : s.Edge s.tick := by
  cases hh : s.halted with
  | true => rw [State.tick, State.edgeWith_halted _ hh]; exact .quiescent hh
  | false =>
    cases hp : s.phase with
    | address => rw [State.tick, State.edgeWith_address _ hh hp]; exact .address hh hp
    | increment => rw [State.tick, State.edgeWith_increment _ hh hp]; exact .increment hh hp
    | fetch => rw [State.tick, State.edgeWith_fetch _ hh hp]; exact .fetch hh hp
    | exec1 => exact State.edge_tick_exec1 hh hp
    | exec2 => exact State.edge_tick_exec2 hh hp
    | exec3 => exact State.edge_tick_exec3 hh hp

end Sys2Proof.Machine
end

section
/-! PROOFS. The state invariant (spec/10_state.md rule R32) at reset and under every edge and step. -/

namespace Sys2Proof.Machine

variable {s : State}

/-- Of a running core the invariant asks the memory's form and that no snapshot has been taken. -/
theorem State.inv_of_running (hm : s.mem.wf = true) (hh : s.halted = false) (hs : s.snapshot = none) : s.Inv := by
  simp [State.Inv, hm, hh, hs]

/-- A running core that meets the invariant has no snapshot. -/
theorem State.Inv.snapshot_of_running (h : s.Inv) (hh : s.halted = false) : s.snapshot = none := by
  obtain ⟨-, -, hsnap⟩ := h
  simpa [hh] using hsnap

theorem State.cleared_rst (s : State) : s.rst.Cleared := ⟨rfl, rfl, rfl, rfl, rfl, rfl⟩

theorem State.cleared_halt (s : State) : s.halt.Cleared := ⟨rfl, rfl, rfl, rfl, rfl, rfl⟩

theorem State.inv_rst (hm : s.mem.wf = true) : s.rst.Inv := State.inv_of_running hm rfl rfl

theorem State.inv_halt (hm : s.mem.wf = true) : s.halt.Inv := ⟨hm, fun _ => s.cleared_halt, by simp⟩

/-- How an edge treats the halt flag and the snapshot together: a halted core stays as it is, and a running one
either halts or keeps both. -/
theorem State.edgeWith_halted_snapshot (i : Instr) (s : State) :
    (s.halted = true ∧ s.edgeWith (microOps i) = s) ∨
    s.halted = false ∧
      (s.edgeWith (microOps i) = s.halt ∨
        (s.edgeWith (microOps i)).halted = false ∧ (s.edgeWith (microOps i)).snapshot = s.snapshot) := by
  rcases s.edgeWith_cases i with h | ⟨hh, h⟩
  · exact .inl h
  · refine .inr ⟨hh, ?_⟩
    have keeps {t : State} (e : s.edgeWith (microOps i) = t) (h : t.halted = s.halted ∧ t.snapshot = s.snapshot) :
        (s.edgeWith (microOps i)).halted = false ∧ (s.edgeWith (microOps i)).snapshot = s.snapshot := by
      rwa [e, ← hh]
    rcases h with ⟨-, e⟩ | ⟨-, e⟩ | ⟨-, e⟩ | ⟨-, ⟨_, e⟩ | e | e | e⟩ | ⟨-, e | e | e⟩ | ⟨-, ⟨_, e⟩ | e⟩
    case inr.inr.inr.inl.inr.inr.inl => exact .inl e
    all_goals exact .inr (keeps e ⟨rfl, rfl⟩)

/-- Every edge of every instruction keeps the invariant. -/
theorem State.Inv.edgeWith (i : Instr) (h : s.Inv) : (s.edgeWith (microOps i)).Inv := by
  rcases s.edgeWith_halted_snapshot i with ⟨-, e⟩ | ⟨hh, e | ⟨hh', hs⟩⟩
  · rwa [e]
  · rw [e]; exact State.inv_halt h.1
  · exact State.inv_of_running (by rw [State.edgeWith_mem]; exact h.1) hh' (hs.trans (h.snapshot_of_running hh))

theorem State.Inv.clockEdge (h : s.Inv) : ∀ r, (s.clockEdge r).Inv
  | true => State.inv_rst h.1
  | false => h.edgeWith _

end Sys2Proof.Machine

namespace Sys2Proof

open Machine

/-- Settles O36: an edge leaves a halted core alone, halts it with its snapshot, or touches neither flag nor
snapshot; a step is a stretch of such edges. -/
theorem everyStepKeepsTheInvariant : Obligations.EveryStepKeepsTheInvariant := fun _ h =>
  ⟨fun _ ht => step_induction (fun i _ hs => State.Inv.edgeWith i hs) ht h, h.clockEdge⟩

end Sys2Proof
end

section
/-! PROOFS. The coherence of the instruction in progress (spec/41_sequencer.md rules R87 to R90), phase by phase. -/

namespace Sys2Proof.Machine

variable {s t : State}

/-! ### What coherence asks in each phase -/

/-- At the start of an instruction coherence asks nothing. -/
theorem State.coherent_of_address (hp : s.phase = .address) : s.Coherent := by
  simp [State.Coherent, hp]

theorem State.coherent_increment_iff (hp : s.phase = .increment) : s.Coherent ↔ s.mar = s.pc := by
  simp [State.Coherent, hp]

theorem State.coherent_fetch_iff (hp : s.phase = .fetch) : s.Coherent ↔ s.pc = s.mar + 1 := by
  simp [State.Coherent, hp]

theorem State.coherent_exec1_iff (hp : s.phase = .exec1) :
    s.Coherent ↔ s.pc = s.mar + 1 ∧ s.ir = s.mem.read s.mar := by
  simp [State.Coherent, hp]

/-- What coherence asks in both Exec2 and Exec3: IR holds the instruction's own word, no HLT, and MAR the operand
address if there is one. -/
def State.Executing (s : State) : Prop :=
  s.ir = s.mem.read (s.pc - 1) ∧ s.opClass ≠ .hlt ∧
    s.mar = if s.opClass.readsMemory then addrField s.ir else s.pc - 1

theorem State.coherent_exec2_iff (hp : s.phase = .exec2) : s.Coherent ↔ s.Executing := by
  simp [State.Coherent, State.Executing, hp]

theorem State.coherent_exec3_iff (hp : s.phase = .exec3) :
    s.Coherent ↔ s.Executing ∧ (s.opClass = .lda → s.acc = s.mem.read s.mar) ∧
      (s.opClass = .add ∨ s.opClass = .sub → s.b = s.mem.read s.mar) := by
  simp [State.Coherent, State.Executing, hp]

/-! ### Every edge keeps it -/

/-- In Exec1 of OUT and of the undefined opcodes the registers already are what Exec2 and Exec3 ask. -/
theorem State.Coherent.executing_of_exec1 (hs : s.Coherent) (hp : s.phase = .exec1)
    (hc : s.opClass.readsMemory = false) (hne : s.opClass ≠ .hlt) : s.Executing := by
  obtain ⟨hpc, hir⟩ := (State.coherent_exec1_iff hp).1 hs
  exact ⟨by simp [hpc, hir], hne, by simp [hpc, hc]⟩

/-- Exec1 of LDA, ADD and SUB moves MAR to where Exec2 and Exec3 ask it to be. -/
theorem State.Coherent.executing_setMar (hs : s.Coherent) (hp : s.phase = .exec1)
    (hc : s.opClass.readsMemory = true) : (s.setMar (addrField s.ir)).Executing := by
  obtain ⟨hpc, hir⟩ := (State.coherent_exec1_iff hp).1 hs
  have hne : s.opClass ≠ .hlt := fun h => by simp [h, OpClass.readsMemory] at hc
  exact ⟨by simp [hpc, hir], hne, by simp [hc]⟩

theorem State.Coherent.edge (hs : s.Coherent) (h : s.Edge t) : t.Coherent := by
  cases h with
  | quiescent hh => exact hs
  | address hh hp => exact (State.coherent_increment_iff rfl).2 rfl
  | increment hh hp =>
    exact (State.coherent_fetch_iff rfl).2 (congrArg (· + 1) ((State.coherent_increment_iff hp).1 hs).symm)
  | fetch hh hp => exact (State.coherent_exec1_iff rfl).2 ⟨(State.coherent_fetch_iff hp).1 hs, rfl⟩
  | operandToMar hh hp hc => exact (State.coherent_exec2_iff rfl).2 (hs.executing_setMar hp hc)
  | emit hh hp hc =>
    exact (State.coherent_exec2_iff rfl).2 (hs.executing_of_exec1 hp (by rw [hc]; rfl) (by simp [hc]))
  | halt hh hp hc => exact State.coherent_of_address rfl
  | idle1 hh hp hc =>
    exact (State.coherent_exec2_iff rfl).2 (hs.executing_of_exec1 hp (by rw [hc]; rfl) (by simp [hc]))
  | loadAcc hh hp hc =>
    have he : s.Executing := (State.coherent_exec2_iff hp).1 hs
    have hne : ¬ (s.opClass = .add ∨ s.opClass = .sub) := by simp [hc]
    exact (State.coherent_exec3_iff rfl).2 ⟨he, fun _ => rfl, fun h => absurd h hne⟩
  | loadB hh hp hc =>
    have he : s.Executing := (State.coherent_exec2_iff hp).1 hs
    have hne : s.opClass ≠ .lda := by rcases hc with hc | hc <;> simp [hc]
    exact (State.coherent_exec3_iff rfl).2 ⟨he, fun h => absurd h hne, fun _ => rfl⟩
  | idle2 hh hp hc =>
    have he : s.Executing := (State.coherent_exec2_iff hp).1 hs
    have hne : ¬ (s.opClass = .lda ∨ s.opClass = .add ∨ s.opClass = .sub) :=
      mt (OpClass.readsMemory_iff _).2 (by simp [hc])
    exact (State.coherent_exec3_iff rfl).2 ⟨he, fun h => absurd (.inl h) hne, fun h => absurd (.inr h) hne⟩
  | addToAcc hh hp hc => exact State.coherent_of_address rfl
  | subFromAcc hh hp hc => exact State.coherent_of_address rfl
  | idle3 hh hp hc => exact State.coherent_of_address rfl

theorem State.Coherent.clockEdge (h : s.Coherent) : ∀ r, (s.clockEdge r).Coherent
  | true => State.coherent_of_address rfl
  | false => h.edge s.edge_tick

end Sys2Proof.Machine

namespace Sys2Proof

open Machine

/-- Settles O37: each edge of the micro-operation table leads from what coherence asks in its phase to what it asks in
the next one. -/
theorem everyEdgeKeepsTheInstructionCoherent : Obligations.EveryEdgeKeepsTheInstructionCoherent :=
  fun _ h => h.clockEdge

end Sys2Proof
end

section
/-! PROOFS. Which edges can change which register (spec/10_state.md rules R16 to R25). -/

namespace Sys2Proof.Machine

variable {s t : State}

/-- An edge of the table changes a register only in the phase and the class the table gives the register's write, or
by the master reset of a halt. -/
theorem State.Edge.writes (h : s.Edge t) :
    (t.pc ≠ s.pc → s.phase = .increment ∨ s.Halting) ∧
    (t.mar ≠ s.mar → s.phase = .address ∨ (s.phase = .exec1 ∧ s.opClass.readsMemory = true) ∨ s.Halting) ∧
    (t.ir ≠ s.ir → s.phase = .fetch ∨ s.Halting) ∧
    (t.acc ≠ s.acc →
      (s.phase = .exec2 ∧ s.opClass = .lda) ∨
      (s.phase = .exec3 ∧ (s.opClass = .add ∨ s.opClass = .sub)) ∨ s.Halting) ∧
    (t.b ≠ s.b → (s.phase = .exec2 ∧ (s.opClass = .add ∨ s.opClass = .sub)) ∨ s.Halting) ∧
    (t.halted ≠ s.halted → s.Halting) ∧
    (t.snapshot ≠ s.snapshot → s.Halting) ∧
    (t.out ≠ s.out → s.phase = .exec1 ∧ s.opClass = .out) := by
  cases h with
  | quiescent hh => simp
  | address hh hp => simp [hp]
  | increment hh hp => simp [hp]
  | fetch hh hp => simp [hp]
  | operandToMar hh hp hc => simp [hp, hc]
  | emit hh hp hc => simp [hp, hc]
  | halt hh hp hc => simp [State.Halting, hh, hp, hc]
  | idle1 hh hp hc => simp
  | loadAcc hh hp hc => simp [hp, hc]
  | loadB hh hp hc => simp [hp, hc]
  | idle2 hh hp hc => simp
  | addToAcc hh hp hc => simp [hp, hc]
  | subFromAcc hh hp hc => simp [hp, hc]
  | idle3 hh hp hc => simp

end Sys2Proof.Machine

namespace Sys2Proof

open Machine

/-- Settles O8: every edge of the core is an entry of the micro-operation table. -/
theorem eachRegisterIsWrittenOnlyInItsPhases : Obligations.EachRegisterIsWrittenOnlyInItsPhases :=
  fun s => s.edge_tick.writes

end Sys2Proof
end

section
/-! PROOFS. A halted core (spec/41_sequencer.md rule R84; spec/60_exceptions.md rules R121, R122). -/

namespace Sys2Proof.Machine

variable {s : State}

/-- Edges without `rst` leave a halted core as it is. -/
theorem State.clockEdges_halted (h : s.halted = true) (rsts : List Bool) (hr : true ∉ rsts) :
    s.clockEdges rsts = s := by
  induction rsts with
  | nil => rfl
  | cons r rs ih =>
    obtain ⟨hr, hrs⟩ : r = false ∧ true ∉ rs := by simpa using hr
    have he : s.clockEdge r = s := by rw [hr]; exact State.edgeWith_halted _ h
    rw [State.clockEdges, he, ih hrs]

/-- Every instruction leaves a halted core as it is. -/
theorem exec_halted (h : s.halted = true) (i : Instr) : exec i s = .next s := by
  rw [exec_eq, State.edgesWith_halted _ h]

/-- Every run leaves a halted core as it is. -/
theorem run_halted (h : s.halted = true) (n : Nat) : core.run n s = .next s := by
  induction n with
  | zero => rfl
  | succ n ih => rw [run_succ_of_step (exec_halted h _), ih]

end Sys2Proof.Machine

namespace Sys2Proof

open Machine

/-- Settles O27: an edge of a halted core does nothing, so edges, instructions and runs, each a stretch of edges, do
nothing; only `rst` clears the flag. -/
theorem haltedCoreIsQuiescent : Obligations.HaltedCoreIsQuiescent := fun _ h =>
  ⟨State.clockEdges_halted h, exec_halted h, run_halted h, rfl⟩

end Sys2Proof
end

section
/-! PROOFS. MAR, IR and B as a run finds them do not reach its output (spec/10_state.md rules R20, R26). -/

namespace Sys2Proof.Machine

variable {s t : State}

/-- The state after the three common phases from the start of an instruction (rules R87 to R89): MAR and IR hold what
the instruction's own address and word make them. -/
def State.fetched (s : State) : State :=
  { s with mar := s.pc, pc := s.pc + 1, ir := s.mem.read s.pc, phase := .exec1 }

/-- The three common phases of any instruction lead to the fetched state. -/
theorem State.edgesWith_fetched (m : MicroOps) (hh : s.halted = false) (hp : s.phase = .address) (n : Nat) :
    s.edgesWith m (n + 3) = s.fetched.edgesWith m n := by
  calc s.edgesWith m (n + 3)
    _ = ((s.setMar s.pc).setPhase .increment).edgesWith m (n + 2) :=
      congrArg (State.edgesWith m (n + 2)) (State.edgeWith_address m hh hp)
    _ = (((s.setMar s.pc).setPc (s.pc + 1)).setPhase .fetch).edgesWith m (n + 1) :=
      congrArg (State.edgesWith m (n + 1)) (State.edgeWith_increment m hh rfl)
    _ = s.fetched.edgesWith m n :=
      congrArg (State.edgesWith m n) (State.edgeWith_fetch m hh rfl)

/-- A step from the start of an instruction: the three execute phases of the word at PC, from the fetched state. -/
theorem step_of_address (hh : s.halted = false) (hp : s.phase = .address) :
    step s = .next (s.fetched.edgesWith
      (classOps (OpClass.ofField (opField (s.mem.read s.pc))) (addrField (s.mem.read s.pc))) 3) := by
  have hw : s.currentWord = s.mem.read s.pc := by simp [State.currentWord, hp]
  rw [step_eq, State.currentInstr, hw, microOps_decode, hp]
  exact congrArg _ (State.edgesWith_fetched _ hh hp 3)

/-- Fetching forgets MAR and IR: states that look alike differ after it in B and the snapshot at most. -/
theorem State.SameVisible.fetched (h : s.SameVisible t) :
    t.fetched = { s.fetched with b := t.b, snapshot := t.snapshot } := by
  obtain ⟨-, -, hpc, hacc, hmem, hhalted, hout⟩ := h
  simp [State.fetched, hpc, hacc, hmem, hhalted, hout]

/-- The execute phases of every class are blind to B and the snapshot: ADD and SUB write B before they read it, and
no other class reads it. -/
theorem State.execute_sameVisible (c : OpClass) (addr : Addr4) (b : Word8) (snap : Option Snapshot)
    (hh : s.halted = false) (hp : s.phase = .exec1) :
    (s.edgesWith (classOps c addr) 3).SameVisible
      (State.edgesWith (classOps c addr) 3 { s with b := b, snapshot := snap }) := by
  obtain ⟨pc, mar, ir, acc, b₀, phase, halted, mem, out, snap₀⟩ := s
  subst hh hp
  cases c <;> exact ⟨rfl, rfl, rfl, rfl, rfl, rfl, rfl⟩

/-- A step of each of two states that look alike leads to states that look alike. -/
theorem State.SameVisible.step (h : s.SameVisible t) :
    ∃ s' t', step s = .next s' ∧ step t = .next t' ∧ s'.SameVisible t' := by
  have hf := h.fetched
  have ⟨hs, ht, hpc, _, hmem, hhalted, _⟩ := h
  cases hh : s.halted with
  | true => exact ⟨s, t, exec_halted hh _, exec_halted (hhalted ▸ hh) _, h⟩
  | false =>
    refine ⟨_, _, step_of_address hh hs, step_of_address (hhalted ▸ hh) ht, ?_⟩
    rw [← hpc, ← hmem, hf]
    exact State.execute_sameVisible _ _ _ _ hh rfl

end Sys2Proof.Machine

namespace Sys2Proof

open Machine

/-- Settles O40, by induction on the number of steps: fetching overwrites MAR and IR, and B is written before it is
read. -/
theorem hiddenRegistersNeverReachTheOutput : Obligations.HiddenRegistersNeverReachTheOutput := by
  intro n
  induction n with
  | zero => exact fun s t h => ⟨s, t, rfl, rfl, h⟩
  | succ n ih =>
    intro s t h
    obtain ⟨s₁, t₁, hs, ht, h₁⟩ := h.step
    obtain ⟨s', t', hs', ht', h'⟩ := ih s₁ t₁ h₁
    exact ⟨s', t', (run_succ_of_step hs n).trans hs', (run_succ_of_step ht n).trans ht', h'⟩

end Sys2Proof
end

section
/-! PROOFS. The reset values (spec/10_state.md rule R30) and the invariants at reset (rule R32). -/

namespace Sys2Proof

open Machine

/-- Settles O1: an empty image lists no word, and `rst` and the halt clear the registers and leave memory. -/
theorem resetValuesOfEveryField : Obligations.ResetValuesOfEveryField :=
  ⟨⟨rfl, rfl, rfl, rfl, rfl, rfl, rfl, rfl, rfl, fun _ => rfl, fun _ => rfl⟩,
    fun s => ⟨s.cleared_rst, rfl, rfl, rfl⟩, fun s => ⟨s.cleared_halt, rfl, rfl⟩⟩

/-- Settles O35: reset and boot are running, have no snapshot, and are at the start of an instruction. -/
theorem resetMeetsTheInvariants : Obligations.ResetMeetsTheInvariants :=
  ⟨State.inv_of_running rfl rfl rfl, State.coherent_of_address rfl,
    fun _ hm => ⟨State.inv_rst hm, State.coherent_of_address rfl⟩⟩

end Sys2Proof
end

section
/-! PROOFS. Memory is constant over edges, resets and runs (spec/20_memory.md rule R35). -/

namespace Sys2Proof.Machine

/-- No active edge writes memory, a reset edge included. -/
@[simp] theorem State.clockEdge_mem (s : State) : ∀ r, (s.clockEdge r).mem = s.mem
  | true => s.rst_mem
  | false => State.edgeWith_mem _ s

theorem State.clockEdges_mem (rsts : List Bool) (s : State) : (s.clockEdges rsts).mem = s.mem := by
  induction rsts generalizing s with
  | nil => rfl
  | cons r rs ih => rw [State.clockEdges, ih, State.clockEdge_mem]

theorem step_mem {s t : State} (h : step s = .next t) : t.mem = s.mem :=
  step_induction (P := fun u => u.mem = s.mem) (fun i u hu => (u.edgeWith_mem i).trans hu) h rfl

theorem run_mem {n : Nat} {s t : State} (h : core.run n s = .next t) : t.mem = s.mem :=
  run_induction (P := fun u => u.mem = s.mem) (fun _ _ hstep hu => (step_mem hstep).trans hu) h rfl

end Sys2Proof.Machine

namespace Sys2Proof

open Machine

/-- Settles O22: no edge writes memory, and both a stretch of edges and a run are edges in a row. -/
theorem memoryIsConstantDuringRuns : Obligations.MemoryIsConstantDuringRuns :=
  ⟨State.clockEdges_mem, fun _ _ _ => run_mem⟩

end Sys2Proof
end

section
/-! PROOFS. Reads and writes of a memory in canonical form (spec/20_memory.md rules R34, R36, R40), and the image a
load puts there (spec/30_encoding.md rule R70). -/

namespace Sys2Proof.Machine

/-- Below the first cell of a memory in canonical form nothing is listed. -/
theorem Memory.readCell_of_lt_first {c : Host.Cell} {rest : Memory} {a : Nat} (h : Memory.wf (c :: rest) = true)
    (ha : a < c.1) : Memory.readCell (c :: rest) a = Config.unlistedWord := by
  obtain ⟨-, -, hall, -⟩ := (Memory.wf_cons _ _).mp h
  apply Memory.readCell_below
  simp only [List.all_cons, Bool.and_eq_true, decide_eq_true_eq, List.all_eq_true] at hall ⊢
  exact ⟨ha, fun d hd => Nat.lt_trans ha (hall d hd)⟩

/-- Writing what a cell address already reads changes nothing: of a memory in canonical form, a listed address is
found and its cell kept, and one that is not listed reads as the word no cell holds. -/
theorem Memory.writeCell_readCell_self {m : Memory} (a : Nat) (h : m.wf = true) :
    m.writeCell a (m.readCell a) = m := by
  induction m with
  | nil => simp [Memory.writeCell]
  | cons c rest ih =>
    obtain ⟨k, x⟩ := c
    obtain ⟨-, hx, -, hrest⟩ := (Memory.wf_cons _ _).mp h
    rcases lt_trichotomy a k with hak | rfl | hka
    · simp [Memory.readCell_of_lt_first h hak, Memory.writeCell, hak]
    · simp [Memory.readCell, Memory.writeCell, hx]
    · simp [Memory.readCell, Memory.writeCell, hka.ne, hka.ne', hka.not_gt, ih hrest]

theorem Memory.write_read_self {m : Memory} (a : Addr4) (h : m.wf = true) : m.write a (m.read a) = m :=
  Memory.writeCell_readCell_self _ h

/-- An image placed at address `k` reads back word for word from there on, and as 0 after its end. -/
theorem Memory.readCell_ofImageFrom (k n : Nat) (image : List Word8) (h : k + image.length ≤ Config.memWords) :
    (Memory.ofImageFrom k image).readCell (k + n) = image.getD n 0 := by
  induction image generalizing k n with
  | nil => rfl
  | cons w ws ih =>
    have h' : k + 1 + ws.length ≤ Config.memWords := by rw [List.length_cons] at h; omega
    cases n with
    | zero => exact Memory.readCell_writeCell_same k w (Memory.wf_ofImageFrom (k + 1) ws h')
    | succ n =>
      calc ((Memory.ofImageFrom (k + 1) ws).writeCell k w).readCell (k + (n + 1))
        _ = (Memory.ofImageFrom (k + 1) ws).readCell (k + (n + 1)) :=
          Memory.readCell_writeCell_other w (by omega)
        _ = (Memory.ofImageFrom (k + 1) ws).readCell (k + 1 + n) := by rw [Nat.add_assoc, Nat.add_comm 1 n]
        _ = ws.getD n 0 := ih (k + 1) n h'

theorem loadImage_of_length_le {image : List Word8} (h : image.length ≤ Config.memWords) :
    loadImage image = .ok (Memory.ofImageFrom 0 image) := by
  simp [loadImage, imageWf, h]

theorem loadImage_of_lt_length {image : List Word8} (h : Config.memWords < image.length) :
    loadImage image = .error .tooManyLines := by
  simp [loadImage, imageWf, h]

end Sys2Proof.Machine

namespace Sys2Proof

open Machine

/-- Settles O41: the four laws of a write to a memory in canonical form, each by induction on its cells. -/
theorem memoryReadAfterWrite : Obligations.MemoryReadAfterWrite := fun _ a v hwf =>
  ⟨Memory.wf_write a v hwf, Memory.read_write_same a v hwf, fun _ => Memory.read_write_other v,
    Memory.write_read_self a hwf⟩

/-- Settles O42, by induction on the image: its first word is written last, over a memory in canonical form that holds
the rest one address further on. -/
theorem loadedImageReadsBack : Obligations.LoadedImageReadsBack := by
  refine fun image => ⟨fun hlen => ?_, loadImage_of_lt_length⟩
  have hfits : 0 + image.length ≤ Config.memWords := (Nat.zero_add _).trans_le hlen
  refine ⟨_, loadImage_of_length_le hlen, Memory.wf_ofImageFrom 0 image hfits, fun a => ?_⟩
  simpa [Memory.read] using Memory.readCell_ofImageFrom 0 a.toNat image hfits

end Sys2Proof
end

section
/-! PROOFS. The word stored at PC is the one the next step runs (spec/20_memory.md rule R40, spec/30_encoding.md
rule R70). -/

namespace Sys2Proof.Machine

/-- A word of the opcode table has 8 bits. -/
theorem tableWord_eight (w : Nat) : tableWord 8 w = BitVec.ofNat 8 w := by
  apply BitVec.eq_of_toNat_eq
  simp [tableWord]

theorem decodeTableWord_eight (w : Nat) : decodeTableWord 8 w = some (decode (BitVec.ofNat 8 w)) := by
  rw [← tableWord_eight]
  rfl

@[simp] theorem State.withFetchWord_mem (s : State) (w : Nat) :
    (s.withFetchWord 8 w).mem = s.mem.write s.pc (BitVec.ofNat 8 w) := by
  rw [← tableWord_eight]
  rfl

/-- The core with a word stored at PC is at the start of that word's instruction. -/
theorem State.currentInstr_withFetchWord (s : State) (w : Nat) (h : s.mem.wf = true) :
    (s.withFetchWord 8 w).currentInstr = decode (BitVec.ofNat 8 w) := by
  calc (s.withFetchWord 8 w).currentInstr
    _ = decode ((s.withFetchWord 8 w).mem.read s.pc) := rfl
    _ = decode (BitVec.ofNat 8 w) := by rw [State.withFetchWord_mem, Memory.read_write_same _ _ h]

end Sys2Proof.Machine

namespace Sys2Proof

open Machine

/-- Settles O12: a step runs the current instruction, which the stored word has become, and the memory is the old one
after one write at PC. -/
theorem fetchWordRunsNext : Obligations.FetchWordRunsNext := by
  intro s w i hwf hdec
  obtain rfl : decode (BitVec.ofNat 8 w) = i := Option.some.inj ((decodeTableWord_eight w).symm.trans hdec)
  rw [State.withFetchWord_mem]
  refine ⟨?_, Memory.read_write_same _ _ hwf, fun _ => Memory.read_write_other _⟩
  rw [step, State.currentInstr_withFetchWord s w hwf]

end Sys2Proof
end

section
/-! PROOFS. The opcode map both ways (spec/30_encoding.md rules R49, R50, R52): words, fields and instructions
determine each other. -/

namespace Sys2Proof

/-! ### A word and its two fields -/

@[simp] theorem opField_packWord (op low : Nibble) : opField (packWord op low) = op :=
  BitVec.extractLsb'_append_eq_left

@[simp] theorem addrField_packWord (op low : Nibble) : addrField (packWord op low) = low :=
  BitVec.extractLsb'_append_eq_right

/-- A word is its opcode field over its low field (rule R49). -/
@[simp] theorem packWord_fields (w : Word8) : packWord (opField w) (addrField w) = w :=
  (BitVec.extractLsb'_append_extractLsb'_eq_extractLsb' rfl).trans BitVec.extractLsb'_eq_self

/-! ### Decode after encode -/

theorem decode_encode (i : Instr) : decode (encode i) = i := by
  cases i <;> simp [encode, decode]

/-- Each of the 16 opcodes has an instruction, with any low nibble. -/
theorem exists_encode_eq_packWord (op low : Nibble) : ∃ i, encode i = packWord op low := by
  have cases16 : op = 0 ∨ op = 1 ∨ op = 2 ∨ op = 3 ∨ op = 4 ∨ op = 5 ∨ op = 6 ∨ op = 7 ∨
      op = 8 ∨ op = 9 ∨ op = 10 ∨ op = 11 ∨ op = 12 ∨ op = 13 ∨ op = 14 ∨ op = 15 := by decide +revert
  rcases cases16 with rfl | rfl | rfl | rfl | rfl | rfl | rfl | rfl | rfl | rfl | rfl | rfl | rfl | rfl | rfl | rfl
  exacts [⟨.lda low, rfl⟩, ⟨.add low, rfl⟩, ⟨.sub low, rfl⟩, ⟨.undef0011 low, rfl⟩, ⟨.undef0100 low, rfl⟩,
    ⟨.undef0101 low, rfl⟩, ⟨.undef0110 low, rfl⟩, ⟨.undef0111 low, rfl⟩, ⟨.undef1000 low, rfl⟩,
    ⟨.undef1001 low, rfl⟩, ⟨.undef1010 low, rfl⟩, ⟨.undef1011 low, rfl⟩, ⟨.undef1100 low, rfl⟩,
    ⟨.undef1101 low, rfl⟩, ⟨.out low, rfl⟩, ⟨.hlt low, rfl⟩]

theorem encode_decode (w : Word8) : encode (decode w) = w := by
  obtain ⟨i, hi⟩ := exists_encode_eq_packWord (opField w) (addrField w)
  rw [packWord_fields] at hi
  rw [← hi, decode_encode]

/-- What a word decodes to, read off its fields: the instruction whose word has them. -/
theorem decode_eq_of_fields {w : Word8} {i : Instr} (h : encode i = packWord (opField w) (addrField w)) :
    decode w = i := by
  rw [packWord_fields] at h
  rw [← h, decode_encode]

/-! ### The opcode class of an instruction -/

/-- The class the opcode map gives an instruction (rule R52). -/
def Instr.opClass : Instr → Machine.OpClass
  | .lda _ => .lda
  | .add _ => .add
  | .sub _ => .sub
  | .undef0011 _ => .undef
  | .undef0100 _ => .undef
  | .undef0101 _ => .undef
  | .undef0110 _ => .undef
  | .undef0111 _ => .undef
  | .undef1000 _ => .undef
  | .undef1001 _ => .undef
  | .undef1010 _ => .undef
  | .undef1011 _ => .undef
  | .undef1100 _ => .undef
  | .undef1101 _ => .undef
  | .out _ => .out
  | .hlt _ => .hlt

/-- The class of the opcode field of an instruction's word is the instruction's. -/
theorem ofField_opField_encode (i : Instr) : Machine.OpClass.ofField (opField (encode i)) = i.opClass := by
  cases i <;> exact congrArg Machine.OpClass.ofField (opField_packWord _ _)

theorem ofField_opField (w : Word8) : Machine.OpClass.ofField (opField w) = (decode w).opClass := by
  rw [← ofField_opField_encode, encode_decode]

/-- Settles O32: a word's fields are those its instruction was packed from, and every pair of fields is an
instruction's. -/
theorem decodeEncodeAgree : Obligations.DecodeEncodeAgree := ⟨decode_encode, encode_decode⟩

/-- Settles O33: a word with the named opcode field is the word of the named instruction. -/
theorem decodeFollowsTheOpcodeMap : Obligations.DecodeFollowsTheOpcodeMap := by
  intro w
  refine ⟨?_, ?_, ?_, ?_, ?_, ?_, ?_, ?_, ?_, ?_, ?_, ?_, ?_, ?_, ?_, ?_, ofField_opField w⟩
  all_goals exact fun h => decode_eq_of_fields (by rw [h]; rfl)

end Sys2Proof
end

section
/-! PROOFS. A step is the remaining clock edges (spec/41_sequencer.md rules R84, R92): each edge decodes IR afresh, and
decodes what the step decoded once. -/

namespace Sys2Proof.Machine

variable {s : State}

theorem Phase.common_or_executing (p : Phase) :
    (p = .address ∨ p = .increment ∨ p = .fetch) ∨ (p = .exec1 ∨ p = .exec2 ∨ p = .exec3) := by
  cases p <;> decide

theorem Phase.edgesLeft_eq_succ {p : Phase} (h : p ≠ .exec3) : p.edgesLeft = p.next.edgesLeft + 1 := by
  cases p with
  | exec3 => exact absurd rfl h
  | _ => rfl

/-- In the execute phases the instruction is the one in IR. -/
theorem State.currentInstr_of_executing (hp : s.phase = .exec1 ∨ s.phase = .exec2 ∨ s.phase = .exec3) :
    s.currentInstr = decode s.ir := by
  rcases hp with hp | hp | hp <;> simp only [State.currentInstr, State.currentWord, hp]

/-- An edge acts as the instruction the core is in: before the execute phases no instruction makes a difference. -/
theorem State.tick_eq_edgeWith_currentInstr (s : State) : s.tick = s.edgeWith (microOps s.currentInstr) := by
  rcases s.phase.common_or_executing with hp | hp
  · exact State.edgeWith_common _ _ hp
  · rw [State.tick, State.currentInstr_of_executing hp]

theorem State.running_of_tick (h : s.tick.halted = false) : s.halted = false := by
  by_contra hs
  rw [State.tick, State.edgeWith_halted _ (by simpa using hs)] at h
  exact hs h

/-- An edge that neither halts the core nor ends the instruction moves on within the same instruction: its word goes
from memory to IR and stays there. -/
theorem State.tick_within_instr (hh : s.tick.halted = false) (hp : s.phase ≠ .exec3) :
    s.tick.phase = s.phase.next ∧ s.tick.currentInstr = s.currentInstr := by
  have hrun := State.running_of_tick hh
  rcases s.phase.common_or_executing with (h | h | h) | h
  · simp [State.tick, State.edgeWith_address _ hrun h, State.currentInstr, State.currentWord, h, Phase.next]
  · simp [State.tick, State.edgeWith_increment _ hrun h, State.currentInstr, State.currentWord, h, Phase.next]
  · simp [State.tick, State.edgeWith_fetch _ hrun h, State.currentInstr, State.currentWord, h, Phase.next]
  · obtain ⟨hir, hnext⟩ : s.tick.ir = s.ir ∧ s.tick.phase = s.phase.next := State.edgeWith_exec_ir _ h hh
    have h' : s.tick.phase = .exec2 ∨ s.tick.phase = .exec3 := by
      rw [hnext]
      rcases h with h | h | h
      · simp [h, Phase.next]
      · simp [h, Phase.next]
      · exact absurd h hp
    exact ⟨hnext, by rw [State.currentInstr_of_executing h, State.currentInstr_of_executing (.inr h'), hir]⟩

/-- Up to the end of the instruction, its own edges are the core's. -/
theorem State.edgesWith_currentInstr (n : Nat) (h : n ≤ s.phase.edgesLeft) :
    s.edgesWith (microOps s.currentInstr) n = s.ticks n := by
  induction n generalizing s with
  | zero => rfl
  | succ n ih =>
    rw [State.edgesWith_succ, ← State.tick_eq_edgeWith_currentInstr, State.ticks_succ]
    cases hh : s.tick.halted with
    | true => rw [State.edgesWith_halted _ hh, State.ticks_halted hh]
    | false =>
      by_cases hp : s.phase = .exec3
      · obtain rfl : n = 0 := by simpa [hp, Phase.edgesLeft] using h
        rfl
      · obtain ⟨hnext, hinstr⟩ := State.tick_within_instr hh hp
        rw [← hinstr]
        rw [Phase.edgesLeft_eq_succ hp] at h
        exact ih (hnext ▸ Nat.le_of_succ_le_succ h)

end Sys2Proof.Machine

namespace Sys2Proof

open Machine

/-- Settles O10, by induction on the edges left: every edge but the last, or one that halts, stays in the
instruction. -/
theorem stepIsTheRemainingClockEdges : Obligations.StepIsTheRemainingClockEdges := by
  intro s
  rw [step_eq, State.edgesWith_currentInstr _ le_rfl]

/-- Settles O19: the micro-operations of these instructions do not read their low nibble. -/
theorem ignoredNibbleMakesNoDifference : Obligations.IgnoredNibbleMakesNoDifference := fun _ _ _ =>
  ⟨rfl, rfl, rfl, rfl, rfl, rfl, rfl, rfl, rfl, rfl, rfl, rfl, rfl⟩

end Sys2Proof
end

section
/-! PROOFS. The assembler's placement of statements (spec/30_encoding.md rules R61 to R63, R66, R67) and the words it
emits (rules R54, R59, R72). -/

namespace Sys2Proof.Machine

/-! ### Placement -/

theorem placeStmt_of_instr {st : AsmStmt} {i : Instr} (h : st.instr? = some i) (cur : Nat) (image : List Word8) :
    placeStmt cur image st = (cur + 1, image.set cur (encode i)) := by
  cases st <;> cases h <;> rfl

/-- An instruction moves the cursor on, SET leaves it (rules R61, R62). -/
theorem cursor_placeStmt (cur : Nat) (image : List Word8) (st : AsmStmt) :
    (placeStmt cur image st).1 = cur + if st.instr?.isSome then 1 else 0 := by
  cases st <;> rfl

theorem length_placeStmt (cur : Nat) (image : List Word8) (st : AsmStmt) :
    (placeStmt cur image st).2.length = image.length := by
  cases st <;> exact List.length_set

/-- Statements in a row: the later ones go on from the cursor and the image the earlier ones leave. -/
theorem placeAll_append (cur : Nat) (image : List Word8) (xs ys : List AsmStmt) :
    placeAll cur image (xs ++ ys) = placeAll (placeAll cur image xs).1 (placeAll cur image xs).2 ys := by
  induction xs generalizing cur image with
  | nil => rfl
  | cons x xs ih => exact ih _ _

theorem length_placeAll (cur : Nat) (image : List Word8) (xs : List AsmStmt) :
    (placeAll cur image xs).2.length = image.length := by
  induction xs generalizing cur image with
  | nil => rfl
  | cons x xs ih => exact (ih _ _).trans (length_placeStmt _ _ _)

/-- The cursor counts the instructions placed (rule R62). -/
theorem cursor_placeAll (cur : Nat) (image : List Word8) (xs : List AsmStmt) :
    (placeAll cur image xs).1 = cur + xs.countP fun x => x.instr?.isSome := by
  induction xs generalizing cur image with
  | nil => rfl
  | cons x xs ih =>
    rw [placeAll, ih, cursor_placeStmt, List.countP_cons]
    omega

theorem emitImage_append_singleton (xs : List AsmStmt) (st : AsmStmt) :
    emitImage (xs ++ [st]) = (placeStmt (xs.countP fun x => x.instr?.isSome) (emitImage xs) st).2 := by
  rw [emitImage, placeAll_append, cursor_placeAll, Nat.zero_add]
  rfl

/-! ### The words the assembler emits -/

/-- The instructions of statements are the ones the assembler has a form for. -/
theorem assembles_iff_exists_stmt (i : Instr) : i.assembles = true ↔ ∃ st : AsmStmt, st.instr? = some i := by
  constructor
  · intro h
    cases i with
    | lda a => exact ⟨.lda a, rfl⟩
    | add a => exact ⟨.add a, rfl⟩
    | sub a => exact ⟨.sub a, rfl⟩
    | out low => exact ⟨.out, by rw [eq_of_beq h]; rfl⟩
    | hlt low => exact ⟨.hlt, by rw [eq_of_beq h]; rfl⟩
    | _ => cases h
  · rintro ⟨st, h⟩
    cases st <;> cases h <;> rfl

theorem opClass_of_assembles {i : Instr} (h : i.assembles = true) : i.opClass ≠ .undef := by
  obtain ⟨st, hst⟩ := (assembles_iff_exists_stmt i).mp h
  cases st <;> cases hst <;> simp [Instr.opClass]

end Sys2Proof.Machine

namespace Sys2Proof

open Machine

/-- Settles O45: the last statement is placed over the image of the ones before it, at the cursor they leave or at its
own address. -/
theorem lastStatementWritesOneWord : Obligations.LastStatementWritesOneWord := by
  refine ⟨rfl, fun stmts st => ⟨length_placeAll _ _ _, ?_, fun i hi => ?_⟩⟩
  · rintro a d rfl
    exact emitImage_append_singleton stmts (.set a d)
  · rw [emitImage_append_singleton, placeStmt_of_instr hi]

/-- Settles O46: an assembled instruction is a statement's, and no statement writes an undefined opcode or a low nibble
the core ignores. -/
theorem assemblerWordsDecode : Obligations.AssemblerWordsDecode := by
  refine fun i => ⟨assembles_iff_exists_stmt i, fun h => ⟨decode_encode i, ?_, ?_⟩⟩
  · rw [ofField_opField_encode]
    exact opClass_of_assembles h
  · rintro x (rfl | rfl)
    · exact eq_of_beq h
    · exact eq_of_beq h

end Sys2Proof
end

section
/-! PROOFS. Lines of a text and binary numerals, and the image texts the loader accepts (spec/30_encoding.md rules R64,
R69, R70). -/

namespace Sys2Proof.Machine

/-! ### The pieces of a text -/

theorem splitWhere_eq_splitOnP (cut : Char → Bool) (cs : List Char) : splitWhere cut cs = cs.splitOnP cut := by
  induction cs with
  | nil => rfl
  | cons c cs ih =>
    rw [splitWhere, ih, List.splitOnP_cons_eq_if_modifyHead]
    cases h : cs.splitOnP cut with
    | nil => exact absurd h (List.splitOnP_ne_nil _ _)
    | cons piece pieces => rfl

theorem splitLines_eq_splitOn (text : List Char) : splitLines text = text.splitOn '\n' := by
  rw [splitLines, splitWhere_eq_splitOnP, List.splitOn_eq_splitOnP]

/-- Newline-terminated lines are what a newline separates from an empty last piece. -/
theorem flatMap_newline_eq_intercalate (lines : List (List Char)) :
    lines.flatMap (· ++ ['\n']) = ['\n'].intercalate (lines ++ [[]]) := by
  induction lines with
  | nil => rfl
  | cons line lines ih =>
    rw [List.cons_append, List.intercalate_cons_of_ne_nil (by simp), ← ih, List.flatMap_cons]

/-- The text of newline-terminated lines, and no other, splits into those lines and an empty last piece. -/
theorem splitLines_eq_append_nil_iff {text : List Char} {lines : List (List Char)}
    (h : ∀ line ∈ lines, '\n' ∉ line) :
    splitLines text = lines ++ [[]] ↔ text = lines.flatMap (· ++ ['\n']) := by
  rw [splitLines_eq_splitOn, flatMap_newline_eq_intercalate]
  constructor
  · intro hsplit
    rw [← hsplit, List.intercalate_splitOn]
  · rintro rfl
    exact List.splitOn_intercalate _ (by simpa [or_imp, forall_and] using h) (by simp)

/-! ### Binary numerals -/

theorem binaryToDecimal_append_singleton (digits : List Char) (c : Char) :
    binaryToDecimal (digits ++ [c]) = 2 * binaryToDecimal digits + bitValue c := by
  simp [binaryToDecimal]

/-- The last digit is the number's lowest bit, the ones before it are its half's. -/
theorem decimalToBinary_succ (k n : Nat) :
    decimalToBinary (k + 1) n = decimalToBinary k (n / 2) ++ [if n.testBit 0 then '1' else '0'] := by
  induction k with
  | zero => rfl
  | succ k ih => rw [decimalToBinary, ih, decimalToBinary, Nat.testBit_succ, List.cons_append]

@[simp] theorem length_decimalToBinary (k n : Nat) : (decimalToBinary k n).length = k := by
  induction k with
  | zero => rfl
  | succ k ih => rw [decimalToBinary, List.length_cons, ih]

/-- A character a well-formed image line may hold (rule R69). -/
def IsBit (c : Char) : Prop := c = '0' ∨ c = '1'

theorem isBit_of_mem_decimalToBinary {k n : Nat} {c : Char} (h : c ∈ decimalToBinary k n) : IsBit c := by
  induction k with
  | zero => cases h
  | succ k ih =>
    rcases List.mem_cons.mp h with rfl | h
    · split
      · exact .inr rfl
      · exact .inl rfl
    · exact ih h

/-- Reading a written numeral gives the number, masked to the numeral's width (rule R64). -/
theorem binaryToDecimal_decimalToBinary (k n : Nat) : binaryToDecimal (decimalToBinary k n) = n % 2 ^ k := by
  induction k generalizing n with
  | zero => simp [decimalToBinary, binaryToDecimal, Nat.mod_one]
  | succ k ih =>
    have hbit : bitValue (if n.testBit 0 then '1' else '0') = n % 2 := by
      rw [Nat.testBit_zero]
      rcases Nat.mod_two_eq_zero_or_one n with h | h <;> simp [h, bitValue]
    rw [decimalToBinary_succ, binaryToDecimal_append_singleton, ih, hbit, Nat.pow_succ', Nat.mod_mul, Nat.add_comm]

/-- Writing the number a binary numeral reads as gives the numeral. -/
theorem decimalToBinary_binaryToDecimal (digits : List Char) (h : ∀ c ∈ digits, IsBit c) :
    decimalToBinary digits.length (binaryToDecimal digits) = digits := by
  induction digits using List.reverseRecOn with
  | nil => rfl
  | append_singleton digits c ih =>
    have hdigits : ∀ c ∈ digits, IsBit c := fun d hd => h d (List.mem_append_left _ hd)
    have hhalf : (2 * binaryToDecimal digits + bitValue c) / 2 = binaryToDecimal digits := by
      unfold bitValue; split <;> omega
    have hlast : (if (2 * binaryToDecimal digits + bitValue c).testBit 0 then '1' else '0') = c := by
      rcases h c (by simp) with rfl | rfl <;> simp [Nat.testBit_zero, bitValue]
    rw [List.length_append, List.length_singleton, binaryToDecimal_append_singleton, decimalToBinary_succ, hhalf,
      hlast, ih hdigits]

/-! ### The line of a word -/

/-- The line of a word in an image text (rule R69). -/
def wordLine (w : Word8) : List Char := decimalToBinary Config.imageLineChars w.toNat

theorem imageLineWf_iff (line : List Char) :
    imageLineWf line = true ↔ line.length = Config.imageLineChars ∧ ∀ c ∈ line, IsBit c := by
  simp [imageLineWf, IsBit]

theorem imageLinesWf_iff (lines : List (List Char)) :
    imageLinesWf lines = true ↔ lines.length ≤ Config.memWords ∧ ∀ line ∈ lines, imageLineWf line = true := by
  simp [imageLinesWf]

theorem imageLineWf_wordLine (w : Word8) : imageLineWf (wordLine w) = true :=
  (imageLineWf_iff _).mpr ⟨length_decimalToBinary _ _, fun _ => isBit_of_mem_decimalToBinary⟩

theorem newline_not_mem_of_imageLineWf {line : List Char} (h : imageLineWf line = true) : '\n' ∉ line := by
  intro hmem
  obtain ⟨-, hbits⟩ := (imageLineWf_iff line).mp h
  exact absurd (hbits _ hmem) (by simp [IsBit])

theorem lineWord_wordLine (w : Word8) : lineWord (wordLine w) = w := by
  have hfits : w.toNat % 2 ^ Config.imageLineChars = w.toNat := Nat.mod_eq_of_lt w.isLt
  rw [lineWord, wordLine, binaryToDecimal_decimalToBinary, hfits, BitVec.ofNat_toNat, BitVec.setWidth_eq]

/-- A well-formed line is the line of its word: its number needs no more than the 8 bits of a word. -/
theorem wordLine_lineWord {line : List Char} (h : imageLineWf line = true) : wordLine (lineWord line) = line := by
  obtain ⟨hlen, hbits⟩ := (imageLineWf_iff line).mp h
  have hline := decimalToBinary_binaryToDecimal line hbits
  rw [hlen] at hline
  have hmod : binaryToDecimal line % 2 ^ Config.imageLineChars = binaryToDecimal line := by
    rw [← binaryToDecimal_decimalToBinary, hline]
  calc wordLine (lineWord line)
    _ = decimalToBinary Config.imageLineChars (binaryToDecimal line % 2 ^ Config.imageLineChars) := rfl
    _ = line := by rw [hmod, hline]

/-! ### The text of an image -/

theorem printImage_eq_flatMap (image : List Word8) :
    printImage image = (image.map wordLine).flatMap (· ++ ['\n']) := by
  rw [List.flatMap_map]
  rfl

/-- What the loader asks of a text: well-formed lines with nothing after the last newline. -/
theorem parseImage_eq_ok_iff (text : List Char) (image : List Word8) :
    parseImage text = .ok image ↔
      ∃ lines, splitLines text = lines ++ [[]] ∧ imageLinesWf lines = true ∧ lines.map lineWord = image := by
  constructor
  · intro h
    dsimp only [parseImage] at h
    split_ifs at h with hlast _ hwf
    obtain ⟨lines, hlines⟩ := List.getLast?_eq_some_iff.mp hlast
    rw [hlines, List.dropLast_concat] at h hwf
    exact ⟨lines, hlines, hwf, Except.ok.inj h⟩
  · rintro ⟨lines, hlines, hwf, rfl⟩
    obtain ⟨hlen, -⟩ := (imageLinesWf_iff lines).mp hwf
    simp [parseImage, hlines, hlen, hwf]

end Sys2Proof.Machine

namespace Sys2Proof

open Machine

/-- Settles O43: well-formed lines and words correspond one to one, and a text ended by a newline and its lines. -/
theorem imageTextIsExact : Obligations.ImageTextIsExact := by
  intro text image
  rw [parseImage_eq_ok_iff]
  constructor
  · rintro ⟨lines, hsplit, hwf, rfl⟩
    obtain ⟨hlen, hlines⟩ := (imageLinesWf_iff lines).mp hwf
    have htext := (splitLines_eq_append_nil_iff fun l hl => newline_not_mem_of_imageLineWf (hlines l hl)).mp hsplit
    have hwords : (lines.map lineWord).map wordLine = lines := by
      rw [List.map_map]
      exact (List.map_congr_left fun l hl => wordLine_lineWord (hlines l hl)).trans (List.map_id _)
    exact ⟨by rwa [List.length_map], by rw [printImage_eq_flatMap, hwords, htext]⟩
  · rintro ⟨hlen, rfl⟩
    have hlines : ∀ line ∈ image.map wordLine, imageLineWf line = true := by simp [imageLineWf_wordLine]
    have hwords : (image.map wordLine).map lineWord = image := by
      simp [Function.comp_def, lineWord_wordLine]
    refine ⟨image.map wordLine, ?_, (imageLinesWf_iff _).mpr ⟨by rwa [List.length_map], hlines⟩, hwords⟩
    rw [splitLines_eq_append_nil_iff fun l hl => newline_not_mem_of_imageLineWf (hlines l hl), printImage_eq_flatMap]

end Sys2Proof
end

section
/-! PROOFS. The assembler reads the canonical listing of statements (spec/30_encoding.md rules R56 to R61). -/

namespace Sys2Proof.Machine

/-! ### Tokens -/

/-- What the tokens of a line are: not empty, and with no white space inside (rule R57). -/
def IsToken (t : List Char) : Prop := t ≠ [] ∧ ∀ c ∈ t, isWhite c = false

/-- Tokens with a space between each two of them are read back. -/
theorem tokens_intercalate {ts : List (List Char)} (h : ∀ t ∈ ts, IsToken t) :
    tokens ([' '].intercalate ts) = ts := by
  induction ts with
  | nil => rfl
  | cons t ts ih =>
    obtain ⟨⟨hne, hsolid⟩, hts⟩ := List.forall_mem_cons.mp h
    cases ts with
    | nil => simp [tokens, splitWhere_eq_splitOnP, List.splitOnP_eq_singleton hsolid, hne]
    | cons u us =>
      rw [List.intercalate_cons_of_ne_nil (by simp), List.append_assoc, List.singleton_append, tokens,
        splitWhere_eq_splitOnP, List.splitOnP_append_cons_of_forall_mem hsolid _ rfl, ← splitWhere_eq_splitOnP,
        List.filter_cons_of_pos (by simpa using hne), ← tokens, ih hts]

/-! ### Hexadecimal literals -/

theorem isWhite_hexChar (n : Nibble) : isWhite (hexChar n) = false := by decide +revert

theorem hexChar_ne_newline (n : Nibble) : hexChar n ≠ '\n' := by decide +revert

theorem hexDigitValue_hexChar (n : Nibble) : hexDigitValue (hexChar n) = some n.toNat := by decide +revert

/-- The `0x` of a literal and the characters that are not white after them are one token (rule R60). -/
theorem isToken_literal {ds : List Char} (h : ∀ c ∈ ds, isWhite c = false) : IsToken ('0' :: 'x' :: ds) :=
  ⟨List.cons_ne_nil _ _, List.forall_mem_cons.mpr ⟨by decide, List.forall_mem_cons.mpr ⟨by decide, h⟩⟩⟩

theorem isToken_printAddr (a : Addr4) : IsToken (printAddr a) :=
  isToken_literal (by simp [isWhite_hexChar])

theorem isToken_printData (d : Word8) : IsToken (printData d) :=
  isToken_literal (by simp [isWhite_hexChar])

/-- A word's value, digit by digit. -/
theorem toNat_eq_fields (w : Word8) : 16 * (opField w).toNat + (addrField w).toNat = w.toNat := by
  simp only [opField, addrField, BitVec.extractLsb'_toNat, Nat.shiftRight_eq_div_pow]
  omega

theorem addrLiteral_printAddr (a : Addr4) : addrLiteral (printAddr a) = .ok a := by
  simp [addrLiteral, literalValue, printAddr, hexDigitsToDecimal, hexDigitValue_hexChar]

theorem dataLiteral_printData (d : Word8) : dataLiteral (printData d) = .ok d := by
  simp [dataLiteral, literalValue, printData, hexDigitsToDecimal, hexDigitValue_hexChar, toNat_eq_fields]

/-! ### One statement -/

/-- The name a statement is written with. -/
def AsmStmt.op : AsmStmt → AsmOp
  | .lda _ => .lda
  | .add _ => .add
  | .sub _ => .sub
  | .out => .out
  | .hlt => .hlt
  | .set _ _ => .set

/-- The operand tokens a statement is written with. -/
def AsmStmt.operands : AsmStmt → List (List Char)
  | .lda a => [printAddr a]
  | .add a => [printAddr a]
  | .sub a => [printAddr a]
  | .out => []
  | .hlt => []
  | .set a d => [printAddr a, printData d]

theorem AsmStmt.print_eq_intercalate (st : AsmStmt) : st.print = [' '].intercalate (st.op.name :: st.operands) := by
  cases st <;> rfl

theorem isToken_name (op : AsmOp) : IsToken op.name := by
  cases op <;> simp [IsToken, AsmOp.name, isWhite]

theorem isToken_of_mem_operands {st : AsmStmt} {t : List Char} (h : t ∈ st.operands) : IsToken t := by
  cases st with
  | lda a | add a | sub a => rw [List.mem_singleton.mp h]; exact isToken_printAddr a
  | out | hlt => cases h
  | set a d =>
    rcases List.mem_pair.mp h with rfl | rfl
    · exact isToken_printAddr a
    · exact isToken_printData d

theorem tokens_print (st : AsmStmt) : tokens st.print = st.op.name :: st.operands := by
  rw [AsmStmt.print_eq_intercalate]
  exact tokens_intercalate (List.forall_mem_cons.mpr ⟨isToken_name _, fun _ => isToken_of_mem_operands⟩)

theorem AsmOp.ofToken_name (op : AsmOp) : AsmOp.ofToken op.name = some op := by
  cases op <;> rfl

theorem AsmStmt.length_operands (st : AsmStmt) : st.operands.length = st.op.operandCount := by
  cases st <;> rfl

theorem tokenizeLine_print (st : AsmStmt) : tokenizeLine st.print = .ok (st.op, st.operands) := by
  simp [tokenizeLine, tokens_print, AsmOp.ofToken_name, AsmStmt.length_operands]

theorem resolveLine_operands (st : AsmStmt) : resolveLine (st.op, st.operands) = .ok st := by
  cases st <;> simp [AsmStmt.op, AsmStmt.operands, resolveLine, addrStmt, addrLiteral_printAddr, dataLiteral_printData]

/-- A statement's line is one: it begins with a letter (rule R56). -/
theorem significant_print (st : AsmStmt) : significant st.print = true := by
  cases st <;> rfl

theorem newline_not_mem_print (st : AsmStmt) : '\n' ∉ st.print := by
  cases st <;> simp [AsmStmt.print, AsmOp.name, printAddr, printData, (hexChar_ne_newline _).symm]

/-! ### The listing -/

theorem mapExcept_map {α β γ ε : Type} {f : β → Except ε γ} {g : α → β} {k : α → γ}
    (h : ∀ a, f (g a) = .ok (k a)) (as : List α) : mapExcept f (as.map g) = .ok (as.map k) := by
  induction as with
  | nil => rfl
  | cons a as ih => rw [List.map_cons, mapExcept, h, ih]; rfl

/-- Both passes read back the lines of statements. -/
theorem assemble_of_sourceLines {text : List Char} {stmts : List AsmStmt}
    (h : sourceLines text = stmts.map AsmStmt.print) : assemble text = .ok (emitImage stmts) := by
  have hparse : parseSource text = .ok stmts := by
    rw [parseSource, h, mapExcept_map tokenizeLine_print]
    exact (mapExcept_map resolveLine_operands stmts).trans (by rw [List.map_id'])
  rw [assemble, hparse]

theorem splitLines_printSource (stmts : List AsmStmt) :
    splitLines (printSource stmts) = stmts.map AsmStmt.print ++ [[]] := by
  rw [splitLines_eq_append_nil_iff (by simp [newline_not_mem_print]), List.flatMap_map]
  rfl

theorem sourceLines_printSource (stmts : List AsmStmt) :
    sourceLines (printSource stmts) = (stmts.take Config.maxSourceLines).map AsmStmt.print := by
  have hall : (stmts.map AsmStmt.print).filter significant = stmts.map AsmStmt.print := by
    simp [List.filter_eq_self, significant_print]
  have hlast : [[]].filter significant = [] := rfl
  rw [sourceLines, splitLines_printSource, List.filter_append, hall, hlast, List.append_nil, List.map_take]

/-- A statement by itself, without a newline, is a source text. -/
theorem sourceLines_print (st : AsmStmt) : sourceLines st.print = [st].map AsmStmt.print := by
  rw [sourceLines, splitLines_eq_splitOn, List.splitOn_eq_singleton (newline_not_mem_print st),
    List.filter_cons_of_pos (significant_print st)]
  rfl

end Sys2Proof.Machine

namespace Sys2Proof

open Machine

/-- Settles O44: each printed statement is a significant line whose tokens and literals read back as the statement. -/
theorem assemblerReadsItsListing : Obligations.AssemblerReadsItsListing :=
  fun stmts => assemble_of_sourceLines (sourceLines_printSource stmts)

/-- Settles O34: the assembler reads each printed statement back and places its word at address 0. -/
theorem workedEncodings : Obligations.WorkedEncodings :=
  ⟨⟨rfl, rfl⟩, ⟨rfl, rfl⟩, ⟨rfl, rfl⟩, ⟨rfl, rfl⟩, ⟨rfl, rfl⟩,
    assemble_of_sourceLines (sourceLines_print (.lda 0x9)), assemble_of_sourceLines (sourceLines_print (.add 0xA)),
    assemble_of_sourceLines (sourceLines_print (.sub 0xF)), assemble_of_sourceLines (sourceLines_print .out),
    assemble_of_sourceLines (sourceLines_print .hlt), fun _ _ => rfl⟩

end Sys2Proof
end

section
/-! PROOFS. The ripple chain of the ALU as arithmetic (spec/40_alu.md rules R74 to R77), and its corner table (rule
R80). -/

namespace Sys2Proof.Machine

/-- One stage of the chain: sum and carry are the two binary digits of the number of inputs set. -/
theorem fullAdder_toNat (a b c : Bool) :
    (fullAdderSum a b c).toNat + 2 * (fullAdderCarry a b c).toNat = a.toNat + b.toNat + c.toNat := by
  decide +revert

/-- The chain's invariant: its first `n` sum bits, with the carry out of them on top, are the sum of the operands' low
`n` bits and the carry in. -/
theorem ripple_toNat (a bb : Word8) (su : Bool) (n : Nat) :
    (rippleSum a bb su n).toNat + 2 ^ n * (rippleCarry a bb su n).toNat =
      a.toNat % 2 ^ n + bb.toNat % 2 ^ n + su.toNat := by
  induction n with
  | zero => simp [rippleSum, rippleCarry, Nat.mod_one]
  | succ n ih =>
    have hstage := fullAdder_toNat (a.getLsbD n) (bb.getLsbD n) (rippleCarry a bb su n)
    have hlow (x : Word8) : x.toNat % 2 ^ (n + 1) = x.toNat % 2 ^ n + 2 ^ n * (x.getLsbD n).toNat := by
      rw [Nat.mod_pow_succ, BitVec.getLsbD, Nat.toNat_testBit]
    rw [rippleSum, rippleCarry, BitVec.toNat_cons', Nat.shiftLeft_eq, hlow a, hlow bb]
    linear_combination ih + 2 ^ n * hstage

/-- The ALU's sum word with its final carry on top is the whole sum of the operand word, the word added to it and the
carry in (rule R74). -/
theorem alu_toNat_add_carry (a b : Word8) (su : Bool) :
    (alu a b su).toNat + 256 * (aluCarry a b su).toNat = a.toNat + (aluOperand b su).toNat + su.toNat := by
  have h := ripple_toNat a (aluOperand b su) su 8
  rwa [Nat.mod_eq_of_lt a.isLt, Nat.mod_eq_of_lt (aluOperand b su).isLt] at h

/-- Addition: the sum word and the carry are the two parts of the sum. -/
theorem alu_add_toNat (a b : Word8) :
    (alu a b false).toNat + 256 * (aluCarry a b false).toNat = a.toNat + b.toNat :=
  alu_toNat_add_carry a b false

/-- Subtraction: complementing `b` and carrying in 1 adds `256 - b`, so the carry is the absence of a borrow. -/
theorem alu_sub_toNat (a b : Word8) :
    (alu a b true).toNat + 256 * (aluCarry a b true).toNat = a.toNat + (256 - b.toNat) := by
  have h := alu_toNat_add_carry a b true
  have hnot : (aluOperand b true).toNat = 255 - b.toNat := BitVec.toNat_not
  have hb := b.isLt
  rw [hnot, Bool.toNat_true] at h
  omega

/-- The word of a sum whose carry is dropped is the sum modulo 256. -/
theorem toNat_eq_mod_of_add_carry {w : Word8} {carry n : Nat} (h : w.toNat + 256 * carry = n) : w.toNat = n % 256 := by
  have hw := w.isLt
  omega

/-- The carry above a word is set exactly when the sum does not fit the word. -/
theorem carry_iff_le_of_add_carry {w : Word8} {carry : Bool} {n : Nat} (h : w.toNat + 256 * carry.toNat = n) :
    carry = true ↔ 256 ≤ n := by
  have hw := w.isLt
  cases carry with
  | false => simp at h ⊢; omega
  | true => simp at h ⊢; omega

end Sys2Proof.Machine

namespace Sys2Proof

open Machine

/-- Settles O29: dropping the carry from the whole sum leaves it modulo 256, which is the words' own arithmetic. -/
theorem rippleChainIsModularArithmetic : Obligations.RippleChainIsModularArithmetic := by
  intro a b
  have hadd := toNat_eq_mod_of_add_carry (alu_add_toNat a b)
  have hsub := toNat_eq_mod_of_add_carry (alu_sub_toNat a b)
  refine ⟨hadd, hsub, BitVec.eq_of_toNat_eq ?_, BitVec.eq_of_toNat_eq ?_⟩
  · rw [hadd, BitVec.toNat_add]
  · rw [hsub, BitVec.toNat_sub, Nat.add_comm]

/-- Settles O30: the carry tells whether the whole sum reaches 256; in a subtraction that sum is `a + (256 - b)`. -/
theorem finalCarryValue : Obligations.FinalCarryValue := by
  intro a b
  have hb := b.isLt
  refine ⟨carry_iff_le_of_add_carry (alu_add_toNat a b), (carry_iff_le_of_add_carry (alu_sub_toNat a b)).trans ?_⟩
  omega

/-- Settles O31: the table of rule R80, row by row, by running the chain. -/
theorem aluCornerCases : Obligations.AluCornerCases := by
  unfold Obligations.AluCornerCases
  decide

end Sys2Proof
end

section
/-! PROOFS. The clock edge entry by entry (spec/41_sequencer.md rules R86 to R92): each entry of the micro-operation
table is what the edge of its phase and class does. -/

namespace Sys2Proof.Machine

variable {s t : State}

/-- The classes without a memory operand are OUT, HLT and the undefined opcodes. -/
theorem OpClass.not_readsMemory_iff (c : OpClass) : c.readsMemory = false ↔ c = .out ∨ c = .hlt ∨ c = .undef := by
  cases c <;> decide

/-- The classes that leave the ALU alone in Exec3. -/
theorem OpClass.not_add_or_sub_iff (c : OpClass) :
    ¬ (c = .add ∨ c = .sub) ↔ c = .lda ∨ c = .out ∨ c = .hlt ∨ c = .undef := by
  cases c <;> decide

/-- A running core in phase `p` advances to the phase after `p`. -/
theorem State.advance_eq_setPhase {p : Phase} (hh : s.halted = false) (hp : s.phase = p) :
    s.advance = s.setPhase p.next := by
  rw [State.advance_of_running (s := s) hh, hp]

theorem State.tick_exec1 {c : OpClass} (hh : s.halted = false) (hp : s.phase = .exec1) (hc : s.opClass = c) :
    s.tick = ((classOps c (addrField s.ir)).exec1 s).advance := by
  rw [State.tick_eq, State.edgeWith_exec1 _ hh hp, hc]

theorem State.tick_exec2 {c : OpClass} (hh : s.halted = false) (hp : s.phase = .exec2) (hc : s.opClass = c) :
    s.tick = ((classOps c (addrField s.ir)).exec2 s).advance := by
  rw [State.tick_eq, State.edgeWith_exec2 _ hh hp, hc]

theorem State.tick_exec3 {c : OpClass} (hh : s.halted = false) (hp : s.phase = .exec3) (hc : s.opClass = c) :
    s.tick = ((classOps c (addrField s.ir)).exec3 s).advance := by
  rw [State.tick_eq, State.edgeWith_exec3 _ hh hp, hc]

/-- Every entry of the table that applies to a state is the state's edge: with `State.edge_tick`, the table and the
edge are the same. -/
theorem State.Edge.tick_eq (h : s.Edge t) : s.tick = t := by
  cases h with
  | quiescent hh => exact State.edgeWith_halted _ hh
  | address hh hp => exact State.edgeWith_address _ hh hp
  | increment hh hp => exact State.edgeWith_increment _ hh hp
  | fetch hh hp => exact State.edgeWith_fetch _ hh hp
  | operandToMar hh hp hc =>
    rcases (OpClass.readsMemory_iff _).1 hc with hc | hc | hc <;>
      exact (State.tick_exec1 hh hp hc).trans (State.advance_eq_setPhase (p := .exec1) hh hp)
  | emit hh hp hc => exact (State.tick_exec1 hh hp hc).trans (State.advance_eq_setPhase (p := .exec1) hh hp)
  | halt hh hp hc => exact (State.tick_exec1 hh hp hc).trans (State.advance_of_halted _ rfl)
  | idle1 hh hp hc => exact (State.tick_exec1 hh hp hc).trans (State.advance_eq_setPhase hh hp)
  | loadAcc hh hp hc => exact (State.tick_exec2 hh hp hc).trans (State.advance_eq_setPhase (p := .exec2) hh hp)
  | loadB hh hp hc =>
    rcases hc with hc | hc <;>
      exact (State.tick_exec2 hh hp hc).trans (State.advance_eq_setPhase (p := .exec2) hh hp)
  | idle2 hh hp hc =>
    rcases (OpClass.not_readsMemory_iff _).1 hc with hc | hc | hc <;>
      exact (State.tick_exec2 hh hp hc).trans (State.advance_eq_setPhase hh hp)
  | addToAcc hh hp hc => exact (State.tick_exec3 hh hp hc).trans (State.advance_eq_setPhase (p := .exec3) hh hp)
  | subFromAcc hh hp hc => exact (State.tick_exec3 hh hp hc).trans (State.advance_eq_setPhase (p := .exec3) hh hp)
  | idle3 hh hp hc =>
    rcases (OpClass.not_add_or_sub_iff _).1 hc with hc | hc | hc | hc <;>
      exact (State.tick_exec3 hh hp hc).trans (State.advance_eq_setPhase hh hp)

/-- The three common phases of a running core are its first three edges. -/
theorem State.ticks_three (hh : s.halted = false) (hp : s.phase = .address) : s.ticks 3 = s.fetched := by
  have h3 : 3 ≤ s.phase.edgesLeft := by simp [hp, Phase.edgesLeft]
  rw [← State.edgesWith_currentInstr 3 h3]
  exact State.edgesWith_fetched _ hh hp 0

end Sys2Proof.Machine

namespace Sys2Proof

open Machine

/-- Settles O6: each clause is an entry of the table `State.Edge`. -/
theorem edgeFollowsTheMicroOperationTable : Obligations.EdgeFollowsTheMicroOperationTable := fun _ =>
  ⟨fun hh => (State.Edge.quiescent hh).tick_eq, fun hh =>
    ⟨fun hp => (State.Edge.address hh hp).tick_eq,
      fun hp => (State.Edge.increment hh hp).tick_eq,
      fun hp => (State.Edge.fetch hh hp).tick_eq,
      fun hp =>
        ⟨fun hc => (State.Edge.operandToMar hh hp ((OpClass.readsMemory_iff _).2 hc)).tick_eq,
          fun hc => (State.Edge.emit hh hp hc).tick_eq,
          fun hc => (State.Edge.halt hh hp hc).tick_eq,
          fun hc => (State.Edge.idle1 hh hp hc).tick_eq⟩,
      fun hp =>
        ⟨fun hc => (State.Edge.loadAcc hh hp hc).tick_eq,
          fun hc => (State.Edge.loadB hh hp hc).tick_eq,
          fun hc => (State.Edge.idle2 hh hp ((OpClass.not_readsMemory_iff _).2 hc)).tick_eq⟩,
      fun hp =>
        ⟨fun hc => (State.Edge.addToAcc hh hp hc).tick_eq,
          fun hc => (State.Edge.subFromAcc hh hp hc).tick_eq,
          fun hc => (State.Edge.idle3 hh hp ((OpClass.not_add_or_sub_iff _).2 hc)).tick_eq⟩⟩⟩

/-- Settles O5: the table's entries of the three common phases, and the fetched state they lead to. -/
theorem commonPhasesFetchTheWordAtPc : Obligations.CommonPhasesFetchTheWordAtPc := fun _ hh =>
  ⟨fun hp => (State.Edge.address hh hp).tick_eq,
    fun hp => (State.Edge.increment hh hp).tick_eq,
    fun hp => (State.Edge.fetch hh hp).tick_eq,
    fun hp => State.ticks_three hh hp⟩

end Sys2Proof
end

section
/-! PROOFS. The control word and the datapath it drives (spec/41_sequencer.md rules R91, R93). -/

namespace Sys2Proof.Machine

variable {s : State}

/-! ### The table of control words -/

/-- MAR's two load signals are asserted where `mar_load` is (rule R91). -/
theorem controlWord_marLd (p : Phase) (c : OpClass) :
    ((controlWord p c).marLdPc || (controlWord p c).marLdIr) =
      (p == .address || (p == .exec1 && c.readsMemory)) := by
  cases p <;> cases c <;> rfl

/-- PC counts in phase Increment only. -/
theorem controlWord_pcInc_iff (p : Phase) (c : OpClass) : (controlWord p c).pcInc = true ↔ p = .increment := by
  cases p <;> cases c <;> decide

/-- No control word enables two loads. -/
theorem controlWord_loads_le_one (p : Phase) (c : OpClass) :
    [(controlWord p c).marLdPc, (controlWord p c).pcInc, (controlWord p c).irLd, (controlWord p c).marLdIr,
      (controlWord p c).accLdMem, (controlWord p c).bLdMem, (controlWord p c).accLdAlu].count true ≤ 1 := by
  cases p <;> cases c <;> decide

/-! ### The signals of a running core -/

theorem State.controlNow_of_running (hh : s.halted = false) : s.controlNow = controlWord s.phase s.opClass := by
  simp [State.controlNow, hh]

theorem State.marLoad_iff :
    s.marLoad = true ↔ s.phase = .address ∨ (s.phase = .exec1 ∧ s.opClass.readsMemory = true) := by
  simp [State.marLoad]

/-- An edge that loads MAR loads what the multiplexer `mar_next` gives (rule R91). -/
theorem State.tick_mar_of_marLoad (hh : s.halted = false) (h : s.marLoad = true) : s.tick.mar = s.marNext := by
  rcases State.marLoad_iff.1 h with hp | ⟨hp, hc⟩
  · simp [(State.Edge.address hh hp).tick_eq, State.marNext, hp]
  · simp [(State.Edge.operandToMar hh hp hc).tick_eq, State.marNext, hp]

/-- In every phase and class the micro-operation writes what the control word enables; HLT alone does not advance. -/
theorem State.tick_eq_datapath (hh : s.halted = false) : s.tick = s.datapath (controlWord s.phase s.opClass) := by
  simp only [State.tick_eq, State.edgeWith, hh, Bool.false_eq_true, if_false]
  cases s.phase with
  | address => exact State.advance_of_running _ hh
  | increment => exact State.advance_of_running _ hh
  | fetch => exact State.advance_of_running _ hh
  | exec1 =>
    cases s.opClass with
    | hlt => exact State.advance_of_halted _ rfl
    | _ => exact State.advance_of_running _ hh
  | exec2 => cases s.opClass <;> exact State.advance_of_running _ hh
  | exec3 => cases s.opClass <;> exact State.advance_of_running _ hh

end Sys2Proof.Machine

namespace Sys2Proof

open Machine

/-- Settles O7: a running core's control word is its entry in the table of control words, and the table has the stated
signals. -/
theorem controlWordDrivesTheSameEdge : Obligations.ControlWordDrivesTheSameEdge := by
  refine ⟨fun s hh => ?_, controlWord_loads_le_one⟩
  rw [State.controlNow_of_running hh]
  exact ⟨State.tick_eq_datapath hh, controlWord_marLd _ _, State.tick_mar_of_marLoad hh, controlWord_pcInc_iff _ _⟩

end Sys2Proof
end

section
/-! PROOFS. How an instruction ends (spec/41_sequencer.md rule R94; spec/43_output_halt.md rule R105). -/

namespace Sys2Proof.Machine

variable {s : State}

theorem OpClass.ofField_eq_hlt_iff (op : Nibble) : OpClass.ofField op = .hlt ↔ op = 0b1111 := by
  decide +revert

/-- The three execute phases of a class end in phase Address; they halt the core for HLT only, and otherwise leave
PC alone. -/
theorem State.execute_ends (c : OpClass) (addr : Addr4) (hh : s.halted = false) (hp : s.phase = .exec1) :
    (s.edgesWith (classOps c addr) 3).phase = .address ∧
    (s.edgesWith (classOps c addr) 3).halted = decide (c = .hlt) ∧
    (c ≠ .hlt → (s.edgesWith (classOps c addr) 3).pc = s.pc) := by
  obtain ⟨pc, mar, ir, acc, b, phase, halted, mem, out, snapshot⟩ := s
  subst hh hp
  cases c with
  | hlt => exact ⟨rfl, rfl, fun h => absurd rfl h⟩
  | _ => exact ⟨rfl, rfl, fun _ => rfl⟩

end Sys2Proof.Machine

namespace Sys2Proof

open Machine

/-- Settles O28: the fetch has moved PC on, and of the execute phases only HLT's halt. -/
theorem onlyHltLeavesTheRun : Obligations.OnlyHltLeavesTheRun := by
  intro s hh hp
  obtain ⟨hphase, hhalted, hpc⟩ := State.execute_ends (s := s.fetched)
    (OpClass.ofField (opField (s.mem.read s.pc))) (addrField (s.mem.read s.pc)) hh rfl
  refine ⟨_, step_of_address hh hp, hphase, ?_, fun h => hpc ?_⟩
  · rw [hhalted, decide_eq_true_iff, OpClass.ofField_eq_hlt_iff]
  · rwa [hhalted, decide_eq_false_iff_not] at h

end Sys2Proof
end

section
/-! PROOFS. The rotation of the phases (spec/41_sequencer.md rules R81, R82). -/

namespace Sys2Proof.Machine

/-- The place of a phase in the rotation: the `i` of its bit `T[i]` in the one-hot view (rule R82). -/
def Phase.index : Phase → Nat
  | .address => 0
  | .increment => 1
  | .fetch => 2
  | .exec1 => 3
  | .exec2 => 4
  | .exec3 => 5

theorem Phase.index_lt (p : Phase) : p.index < 6 := by cases p <;> decide

theorem Phase.index_injective : Function.Injective Phase.index := by
  intro p q
  cases p <;> cases q <;> decide

theorem Phase.index_next (p : Phase) : p.next.index = (p.index + 1) % 6 := by cases p <;> rfl

theorem Phase.index_iterate_next (k : Nat) (p : Phase) : (Phase.next^[k] p).index = (p.index + k) % 6 := by
  induction k with
  | zero => exact (Nat.mod_eq_of_lt p.index_lt).symm
  | succ k ih => rw [Function.iterate_succ_apply', Phase.index_next, ih]; omega

theorem Phase.oneHot_eq_twoPow (p : Phase) : p.oneHot = BitVec.twoPow 6 p.index := by cases p <;> rfl

theorem Phase.getLsbD_oneHot (p : Phase) (j : Nat) : p.oneHot.getLsbD j = decide (j = p.index) := by
  simp [Phase.oneHot_eq_twoPow, p.index_lt, eq_comm]

theorem Phase.oneHot_next (p : Phase) : p.next.oneHot = p.oneHot.rotateLeft 1 := by cases p <;> rfl

end Sys2Proof.Machine

namespace Sys2Proof

open Machine

/-- Settles O4: `k` advances add `k` to the phase's place modulo six. -/
theorem phaseRotationHasPeriodSix : Obligations.PhaseRotationHasPeriodSix := by
  refine ⟨⟨rfl, rfl, rfl, rfl, rfl, rfl⟩, fun p => ⟨?_, fun k h1 h5 hk => ?_, p.oneHot_next, ?_⟩⟩
  · have h := Phase.index_iterate_next 6 p
    rw [Nat.add_mod_right, Nat.mod_eq_of_lt p.index_lt] at h
    exact Phase.index_injective h
  · have h := Phase.index_iterate_next k p
    have hlt := p.index_lt
    rw [hk] at h
    omega
  · exact ⟨p.index, p.index_lt, p.getLsbD_oneHot⟩

end Sys2Proof
end

section
/-! PROOFS. A step is the decoded instruction (spec/41_sequencer.md rules R84, R90), and an instruction from a common
phase is the same instruction one phase on. -/

namespace Sys2Proof.Machine

variable {s : State} (i : Instr)

/-! ### The common phases of an instruction -/

/-- From the start of an instruction, `exec` is `exec` after the three common phases. -/
theorem exec_of_address (hh : s.halted = false) (hp : s.phase = .address) : exec i s = exec i s.fetched := by
  rw [exec_eq, exec_eq, hp]
  exact congrArg _ (State.edgesWith_fetched _ hh hp 3)

theorem exec_of_increment (hh : s.halted = false) (hp : s.phase = .increment) :
    exec i s = exec i ((s.setPc (s.pc + 1)).setPhase .fetch) := by
  rw [exec_eq, exec_eq, hp]
  exact congrArg (fun t => Host.Outcome.next (State.edgesWith (microOps i) 4 t)) (State.edgeWith_increment _ hh hp)

theorem exec_of_fetch (hh : s.halted = false) (hp : s.phase = .fetch) :
    exec i s = exec i ((s.setIr (s.mem.read s.mar)).setPhase .exec1) := by
  rw [exec_eq, exec_eq, hp]
  exact congrArg (fun t => Host.Outcome.next (State.edgesWith (microOps i) 3 t)) (State.edgeWith_fetch _ hh hp)

/-! ### The instruction in progress -/

theorem State.currentInstr_of_address (hp : s.phase = .address) : s.currentInstr = decode (s.mem.read s.pc) := by
  simp only [State.currentInstr, State.currentWord, hp]

theorem State.currentInstr_of_fetching (hp : s.phase = .increment ∨ s.phase = .fetch) :
    s.currentInstr = decode (s.mem.read s.mar) := by
  rcases hp with hp | hp <;> simp only [State.currentInstr, State.currentWord, hp]

variable {i}

theorem step_eq_exec (h : s.currentInstr = i) : step s = exec i s := by rw [step, h]

end Sys2Proof.Machine

namespace Sys2Proof

open Machine

/-- Settles O9: each phase's word is the one the step decodes, and the common phases are the core's first three
edges. -/
theorem stepRunsTheDecodedInstruction : Obligations.StepRunsTheDecodedInstruction := by
  intro s i
  refine ⟨fun hp hi => ?_, fun hp hi => ?_, fun hp hi => ?_⟩
  · have hstep : step s = exec i s := step_eq_exec ((State.currentInstr_of_address hp).trans hi)
    refine ⟨hstep, fun hh => ?_⟩
    rw [hstep, State.ticks_three hh hp, exec_of_address i hh hp]
  · exact step_eq_exec ((State.currentInstr_of_fetching hp).trans hi)
  · exact step_eq_exec ((State.currentInstr_of_executing hp).trans hi)

end Sys2Proof
end

section
/-! PROOFS. HLT from every phase (spec/43_output_halt.md rules R105 to R108). -/

namespace Sys2Proof.Machine

variable {s : State} (low : Nibble)

/-- In Exec1 HLT takes the halt, and the halted core does nothing in the edges that are left. -/
theorem exec_hlt_of_exec1 (hh : s.halted = false) (hp : s.phase = .exec1) : exec (.hlt low) s = .next s.halt := by
  have he : s.edgeWith (microOps (.hlt low)) = s.halt :=
    (State.edgeWith_exec1 _ hh hp).trans (State.advance_of_halted _ rfl)
  rw [exec_eq, hp, Phase.edgesLeft, State.edgesWith_succ, he, State.edgesWith_halted _ rfl]

theorem exec_hlt_of_exec3 (hh : s.halted = false) (hp : s.phase = .exec3) :
    exec (.hlt low) s = .next (s.setPhase .address) := by
  have he : s.edgeWith (microOps (.hlt low)) = s.setPhase .address :=
    (State.edgeWith_exec3 _ hh hp).trans (State.advance_eq_setPhase hh hp)
  rw [exec_eq, hp, Phase.edgesLeft, State.edgesWith_succ, he, State.edgesWith_zero]

theorem exec_hlt_of_exec2 (hh : s.halted = false) (hp : s.phase = .exec2) :
    exec (.hlt low) s = .next (s.setPhase .address) := by
  have he : s.edgeWith (microOps (.hlt low)) = s.setPhase .exec3 :=
    (State.edgeWith_exec2 _ hh hp).trans (State.advance_eq_setPhase hh hp)
  rw [exec_eq, hp, Phase.edgesLeft, State.edgesWith_succ, he]
  exact exec_hlt_of_exec3 (s := s.setPhase .exec3) low hh rfl

end Sys2Proof.Machine

namespace Sys2Proof

open Machine

/-- Settles O17: the common phases lead to Exec1, where the halt is. -/
theorem hltSnapshotsAndMasterResets : Obligations.HltSnapshotsAndMasterResets := by
  intro low s hh
  refine ⟨fun hp => ?_, fun hp => ?_, fun hp => ?_, fun hp => ?_, fun hp => ?_⟩
  · have h : exec (.hlt low) s.fetched = .next s.fetched.halt := exec_hlt_of_exec1 low hh rfl
    rw [exec_of_address _ hh hp, h, hp]
    rfl
  · calc exec (.hlt low) s
      _ = exec (.hlt low) ((s.setPc (s.pc + 1)).setPhase .fetch) := exec_of_increment _ hh hp
      _ = exec (.hlt low) (((s.setPc (s.pc + 1)).setIr (s.mem.read s.mar)).setPhase .exec1) := exec_of_fetch _ hh rfl
      _ = _ := exec_hlt_of_exec1 low hh rfl
  · exact (exec_of_fetch _ hh hp).trans (exec_hlt_of_exec1 low hh rfl)
  · exact exec_hlt_of_exec1 low hh hp
  · exact hp.elim (exec_hlt_of_exec2 low hh) (exec_hlt_of_exec3 low hh)

end Sys2Proof
end

section
/-! PROOFS. An instruction phase by phase, to its end, and what an instruction keeps whose micro-operations keep it
(spec/41_sequencer.md rules R86 to R90). -/

namespace Sys2Proof.Machine

variable {s : State} {i : Instr} {m : MicroOps}

/-! ### From each phase to the next -/

theorem exec_of_increment_to_exec1 (hh : s.halted = false) (hp : s.phase = .increment) :
    exec i s = exec i (((s.setPc (s.pc + 1)).setIr (s.mem.read s.mar)).setPhase .exec1) :=
  (exec_of_increment i hh hp).trans (exec_of_fetch i hh rfl)

/-- An Exec1 that neither halts nor moves the phase leads to Exec2. -/
theorem exec_of_exec1 (hi : microOps i = m) (hh : s.halted = false) (hp : s.phase = .exec1)
    (hh' : (m.exec1 s).halted = false) (hp' : (m.exec1 s).phase = .exec1) :
    exec i s = exec i ((m.exec1 s).setPhase .exec2) := by
  have he := (State.edgeWith_exec1 m hh hp).trans (State.advance_eq_setPhase hh' hp')
  rw [exec_eq, exec_eq, hi, hp, Phase.edgesLeft, State.edgesWith_succ, he]
  rfl

/-- An Exec2 that neither halts nor moves the phase leads to Exec3. -/
theorem exec_of_exec2 (hi : microOps i = m) (hh : s.halted = false) (hp : s.phase = .exec2)
    (hh' : (m.exec2 s).halted = false) (hp' : (m.exec2 s).phase = .exec2) :
    exec i s = exec i ((m.exec2 s).setPhase .exec3) := by
  have he := (State.edgeWith_exec2 m hh hp).trans (State.advance_eq_setPhase hh' hp')
  rw [exec_eq, exec_eq, hi, hp, Phase.edgesLeft, State.edgesWith_succ, he]
  rfl

/-- Exec3 ends the instruction. -/
theorem exec_of_exec3 (hi : microOps i = m) (hh : s.halted = false) (hp : s.phase = .exec3)
    (hh' : (m.exec3 s).halted = false) (hp' : (m.exec3 s).phase = .exec3) :
    exec i s = .next ((m.exec3 s).setPhase .address) := by
  have he := (State.edgeWith_exec3 m hh hp).trans (State.advance_eq_setPhase hh' hp')
  rw [exec_eq, hi, hp, Phase.edgesLeft, State.edgesWith_succ, he]
  rfl

/-! ### What an instruction keeps -/

variable {α : Type} {φ : State → α}

/-- An observation of the state that does not see what the sequencer and the three common phases write: PC, MAR, IR and
the phase. -/
def BlindToFetch (φ : State → α) : Prop :=
  ∀ (s : State) (pc mar : Addr4) (ir : Word8) (p : Phase),
    φ { s with pc := pc, mar := mar, ir := ir, phase := p } = φ s

/-- The micro-operations of the execute phases leave an observation as it is. -/
structure MicroOps.Keeps (m : MicroOps) (φ : State → α) : Prop where
  exec1 : ∀ s, φ (m.exec1 s) = φ s
  exec2 : ∀ s, φ (m.exec2 s) = φ s
  exec3 : ∀ s, φ (m.exec3 s) = φ s

theorem BlindToFetch.advance (hφ : BlindToFetch φ) (s : State) : φ s.advance = φ s := by
  cases hh : s.halted with
  | true => rw [State.advance_of_halted s hh]
  | false => rw [State.advance_of_running s hh]; exact hφ s s.pc s.mar s.ir s.phase.next

theorem BlindToFetch.edgeWith (hφ : BlindToFetch φ) (hm : m.Keeps φ) (s : State) :
    φ (s.edgeWith m) = φ s := by
  cases hh : s.halted with
  | true => rw [State.edgeWith_halted m hh]
  | false =>
    cases hp : s.phase with
    | address => rw [State.edgeWith_address m hh hp]; exact hφ s s.pc s.pc s.ir .increment
    | increment => rw [State.edgeWith_increment m hh hp]; exact hφ s (s.pc + 1) s.mar s.ir .fetch
    | fetch => rw [State.edgeWith_fetch m hh hp]; exact hφ s s.pc s.mar (s.mem.read s.mar) .exec1
    | exec1 => rw [State.edgeWith_exec1 m hh hp, hφ.advance, hm.exec1]
    | exec2 => rw [State.edgeWith_exec2 m hh hp, hφ.advance, hm.exec2]
    | exec3 => rw [State.edgeWith_exec3 m hh hp, hφ.advance, hm.exec3]

/-- From every state, an instruction keeps what its micro-operations keep and the common phases do not touch. -/
theorem BlindToFetch.exec (hφ : BlindToFetch φ) (hi : microOps i = m) (hm : m.Keeps φ) {t : State}
    (h : exec i s = .next t) : φ t = φ s := by
  rw [exec_eq, hi] at h
  cases h
  exact edgesWith_induction (P := fun u => φ u = φ s) (fun u hu => (hφ.edgeWith hm u).trans hu) _ rfl

end Sys2Proof.Machine
end

section
/-! PROOFS. LDA, ADD and SUB from every phase (spec/42_load_arith.md rules R96 to R98), and their frame. -/

namespace Sys2Proof.Machine

variable {s : State} {i : Instr} {op : Word8 → Word8 → Word8} {addr : Addr4}

/-! ### LDA -/

theorem microOps_lda (addr : Addr4) : microOps (.lda addr) = ldaOps addr := rfl

theorem exec_lda_of_exec3 (hh : s.halted = false) (hp : s.phase = .exec3) :
    exec (.lda addr) s = .next (s.setPhase .address) :=
  exec_of_exec3 (microOps_lda addr) hh hp hh hp

theorem exec_lda_of_exec2 (hh : s.halted = false) (hp : s.phase = .exec2) :
    exec (.lda addr) s = .next ((s.setAcc (s.mem.read s.mar)).setPhase .address) :=
  (exec_of_exec2 (microOps_lda addr) hh hp hh hp).trans (exec_lda_of_exec3 hh rfl)

theorem exec_lda_of_exec1 (hh : s.halted = false) (hp : s.phase = .exec1) :
    exec (.lda addr) s = .next (((s.setMar addr).setAcc (s.mem.read addr)).setPhase .address) :=
  (exec_of_exec1 (microOps_lda addr) hh hp hh hp).trans (exec_lda_of_exec2 hh rfl)

/-! ### ADD and SUB: one shape, the ALU's operation apart -/

/-- The micro-operations ADD and SUB share: the operand word to B, and in Exec3 what `op` makes of ACC and B to ACC. -/
def arithOps (op : Word8 → Word8 → Word8) (addr : Addr4) : MicroOps :=
  { exec1 := fun s => s.setMar addr
    exec2 := fun s => s.setB (s.mem.read s.mar)
    exec3 := fun s => s.setAcc (op s.acc s.b) }

/-- ADD's operation is addition modulo 256 (rule R76). -/
theorem microOps_add (addr : Addr4) : microOps (.add addr) = arithOps (· + ·) addr := by
  have halu (a b : Word8) : alu a b false = a + b := by
    obtain ⟨-, -, hadd, -⟩ := rippleChainIsModularArithmetic a b
    exact hadd
  simp only [microOps, addOps, arithOps, halu, State.operandToMar, State.operand]

/-- SUB's operation is subtraction modulo 256 (rule R75). -/
theorem microOps_sub (addr : Addr4) : microOps (.sub addr) = arithOps (· - ·) addr := by
  have halu (a b : Word8) : alu a b true = a - b := by
    obtain ⟨-, -, -, hsub⟩ := rippleChainIsModularArithmetic a b
    exact hsub
  simp only [microOps, subOps, arithOps, halu, State.operandToMar, State.operand]

theorem exec_arith_of_exec3 (hi : microOps i = arithOps op addr) (hh : s.halted = false) (hp : s.phase = .exec3) :
    exec i s = .next ((s.setAcc (op s.acc s.b)).setPhase .address) :=
  exec_of_exec3 hi hh hp hh hp

theorem exec_arith_of_exec2 (hi : microOps i = arithOps op addr) (hh : s.halted = false) (hp : s.phase = .exec2) :
    exec i s =
      .next (((s.setB (s.mem.read s.mar)).setAcc (op s.acc (s.mem.read s.mar))).setPhase .address) :=
  (exec_of_exec2 hi hh hp hh hp).trans (exec_arith_of_exec3 hi hh rfl)

theorem exec_arith_of_exec1 (hi : microOps i = arithOps op addr) (hh : s.halted = false) (hp : s.phase = .exec1) :
    exec i s =
      .next ((((s.setMar addr).setB (s.mem.read addr)).setAcc (op s.acc (s.mem.read addr))).setPhase .address) :=
  (exec_of_exec1 hi hh hp hh hp).trans (exec_arith_of_exec2 hi hh rfl)

/-- What is left of ADD or SUB from each of the six phases. -/
theorem exec_arith_from_every_phase (hi : microOps i = arithOps op addr) (hh : s.halted = false) :
    (s.phase = .address →
      exec i s = .next
        { s with
          pc := s.pc + 1, mar := addr, ir := s.mem.read s.pc,
          b := s.mem.read addr, acc := op s.acc (s.mem.read addr) }) ∧
    (s.phase = .increment →
      exec i s = .next
        { s with
          pc := s.pc + 1, mar := addr, ir := s.mem.read s.mar,
          b := s.mem.read addr, acc := op s.acc (s.mem.read addr), phase := .address }) ∧
    (s.phase = .fetch →
      exec i s = .next
        { s with
          mar := addr, ir := s.mem.read s.mar,
          b := s.mem.read addr, acc := op s.acc (s.mem.read addr), phase := .address }) ∧
    (s.phase = .exec1 →
      exec i s = .next
        { s with mar := addr, b := s.mem.read addr, acc := op s.acc (s.mem.read addr), phase := .address }) ∧
    (s.phase = .exec2 →
      exec i s = .next
        { s with b := s.mem.read s.mar, acc := op s.acc (s.mem.read s.mar), phase := .address }) ∧
    (s.phase = .exec3 → exec i s = .next { s with acc := op s.acc s.b, phase := .address }) := by
  refine ⟨fun hp => ?_, fun hp => ?_, fun hp => ?_, fun hp => ?_, fun hp => ?_, fun hp => ?_⟩
  · rw [exec_of_address i hh hp, exec_arith_of_exec1 (s := s.fetched) hi hh rfl, hp]
    rfl
  · exact (exec_of_increment_to_exec1 hh hp).trans (exec_arith_of_exec1 hi hh rfl)
  · exact (exec_of_fetch i hh hp).trans (exec_arith_of_exec1 hi hh rfl)
  · exact exec_arith_of_exec1 hi hh hp
  · exact exec_arith_of_exec2 hi hh hp
  · exact exec_arith_of_exec3 hi hh hp

/-! ### The frame -/

/-- What LDA, ADD and SUB never write: the halt flag, the trace, the snapshot and the memory. -/
def State.beyondRegisters (s : State) : Bool × List Word8 × Option Snapshot × Memory :=
  (s.halted, s.out, s.snapshot, s.mem)

theorem blindToFetch_beyondRegisters : BlindToFetch State.beyondRegisters := fun _ _ _ _ _ => rfl

theorem ldaOps_keeps_beyondRegisters (addr : Addr4) : (ldaOps addr).Keeps State.beyondRegisters :=
  ⟨fun _ => rfl, fun _ => rfl, fun _ => rfl⟩

theorem arithOps_keeps_beyondRegisters (op : Word8 → Word8 → Word8) (addr : Addr4) :
    (arithOps op addr).Keeps State.beyondRegisters :=
  ⟨fun _ => rfl, fun _ => rfl, fun _ => rfl⟩

theorem ldaOps_keeps_b (addr : Addr4) : (ldaOps addr).Keeps State.b :=
  ⟨fun _ => rfl, fun _ => rfl, fun _ => rfl⟩

end Sys2Proof.Machine

namespace Sys2Proof

open Machine

/-- Settles O13: the common phases lead to Exec1, and Exec1 to Exec3 move MAR to the operand and load it. -/
theorem ldaLoadsTheAddressedWord : Obligations.LdaLoadsTheAddressedWord := by
  intro addr s hh
  refine ⟨fun hp => ?_, fun hp => ?_, fun hp => ?_, fun hp => ?_, fun hp => ?_, fun hp => ?_⟩
  · rw [exec_of_address _ hh hp, exec_lda_of_exec1 (s := s.fetched) hh rfl, hp]
    rfl
  · exact (exec_of_increment_to_exec1 hh hp).trans (exec_lda_of_exec1 hh rfl)
  · exact (exec_of_fetch _ hh hp).trans (exec_lda_of_exec1 hh rfl)
  · exact exec_lda_of_exec1 hh hp
  · exact exec_lda_of_exec2 hh hp
  · exact exec_lda_of_exec3 hh hp

/-- Settles O14: ADD is the arithmetic shape with the ripple chain's sum, which is addition modulo 256. -/
theorem addAddsTheAddressedWord : Obligations.AddAddsTheAddressedWord := fun addr _ hh =>
  exec_arith_from_every_phase (microOps_add addr) hh

/-- Settles O15: SUB is the arithmetic shape with the ripple chain's difference, which is subtraction modulo 256. -/
theorem subSubtractsTheAddressedWord : Obligations.SubSubtractsTheAddressedWord := fun addr _ hh =>
  exec_arith_from_every_phase (microOps_sub addr) hh

/-- Settles O20: no micro-operation of the three writes anything but registers, and none of LDA's writes B. -/
theorem loadArithFrame : Obligations.LoadArithFrame := by
  intro addr s t
  refine ⟨BlindToFetch.exec (fun _ _ _ _ _ => rfl) (microOps_lda addr) (ldaOps_keeps_b addr), fun h => ?_⟩
  have hkeep : t.beyondRegisters = s.beyondRegisters := by
    rcases h with h | h | h
    · exact blindToFetch_beyondRegisters.exec (microOps_lda addr) (ldaOps_keeps_beyondRegisters addr) h
    · exact blindToFetch_beyondRegisters.exec (microOps_add addr) (arithOps_keeps_beyondRegisters _ addr) h
    · exact blindToFetch_beyondRegisters.exec (microOps_sub addr) (arithOps_keeps_beyondRegisters _ addr) h
  obtain ⟨hhalted, hout, hsnapshot, hmem⟩ :
      t.halted = s.halted ∧ t.out = s.out ∧ t.snapshot = s.snapshot ∧ t.mem = s.mem := by
    simpa [State.beyondRegisters] using hkeep
  exact ⟨hhalted, hout, hsnapshot, fun a => by rw [hmem]⟩

end Sys2Proof
end

section
/-! PROOFS. OUT and the undefined opcodes from every phase, and the frame of these and of HLT (spec/43_output_halt.md
rules R99, R101, R108, R109). -/

namespace Sys2Proof.Machine

variable {s t : State} {i : Instr} {vs : Word8 → List Word8}

/-! ### One shape: appending to the trace in Exec1 -/

/-- The one shape of OUT and the undefined opcodes: Exec1 appends to the trace what `vs` makes of ACC, and nothing else
happens. -/
def emitOps (vs : Word8 → List Word8) : MicroOps :=
  { MicroOps.none with exec1 := fun s => { s with out := s.out ++ vs s.acc } }

/-- OUT appends ACC (rule R99). -/
theorem microOps_out (low : Nibble) : microOps (.out low) = emitOps fun v => [v] := rfl

/-- To append nothing is to do nothing. -/
theorem emitOps_nil : (emitOps fun _ => []) = MicroOps.none := by
  simp only [emitOps, List.append_nil, MicroOps.none]

/-- The instructions of the eleven undefined opcodes (rule R109). -/
def undefinedInstrs (low : Nibble) : List Instr :=
  [.undef0011 low, .undef0100 low, .undef0101 low, .undef0110 low, .undef0111 low, .undef1000 low, .undef1001 low,
    .undef1010 low, .undef1011 low, .undef1100 low, .undef1101 low]

/-- The undefined opcodes append nothing. -/
theorem microOps_undefined {low : Nibble} (h : i ∈ undefinedInstrs low) : microOps i = emitOps fun _ => [] := by
  have hall : ∀ j ∈ undefinedInstrs low, microOps j = MicroOps.none := by
    simp only [undefinedInstrs, List.forall_mem_cons]
    exact ⟨rfl, rfl, rfl, rfl, rfl, rfl, rfl, rfl, rfl, rfl, rfl, List.forall_mem_nil _⟩
  rw [emitOps_nil, hall i h]

theorem exec_emit_of_exec3 (hi : microOps i = emitOps vs) (hh : s.halted = false) (hp : s.phase = .exec3) :
    exec i s = .next (s.setPhase .address) :=
  exec_of_exec3 hi hh hp hh hp

theorem exec_emit_of_exec2 (hi : microOps i = emitOps vs) (hh : s.halted = false) (hp : s.phase = .exec2) :
    exec i s = .next (s.setPhase .address) :=
  (exec_of_exec2 hi hh hp hh hp).trans (exec_emit_of_exec3 hi hh rfl)

theorem exec_emit_of_exec1 (hi : microOps i = emitOps vs) (hh : s.halted = false) (hp : s.phase = .exec1) :
    exec i s = .next { s with out := s.out ++ vs s.acc, phase := .address } :=
  (exec_of_exec1 hi hh hp hh hp).trans (exec_emit_of_exec2 hi hh rfl)

/-- What is left of OUT or of an undefined opcode from each of the six phases. -/
theorem exec_emit_from_every_phase (hi : microOps i = emitOps vs) (hh : s.halted = false) :
    (s.phase = .address →
      exec i s = .next { s with pc := s.pc + 1, mar := s.pc, ir := s.mem.read s.pc, out := s.out ++ vs s.acc }) ∧
    (s.phase = .increment →
      exec i s = .next
        { s with pc := s.pc + 1, ir := s.mem.read s.mar, out := s.out ++ vs s.acc, phase := .address }) ∧
    (s.phase = .fetch →
      exec i s = .next { s with ir := s.mem.read s.mar, out := s.out ++ vs s.acc, phase := .address }) ∧
    (s.phase = .exec1 → exec i s = .next { s with out := s.out ++ vs s.acc, phase := .address }) ∧
    (s.phase = .exec2 ∨ s.phase = .exec3 → exec i s = .next { s with phase := .address }) := by
  refine ⟨fun hp => ?_, fun hp => ?_, fun hp => ?_, fun hp => ?_, fun hp => ?_⟩
  · rw [exec_of_address i hh hp, exec_emit_of_exec1 (s := s.fetched) hi hh rfl, hp]
    rfl
  · exact (exec_of_increment_to_exec1 hh hp).trans (exec_emit_of_exec1 hi hh rfl)
  · exact (exec_of_fetch i hh hp).trans (exec_emit_of_exec1 hi hh rfl)
  · exact exec_emit_of_exec1 hi hh hp
  · exact hp.elim (exec_emit_of_exec2 hi hh) (exec_emit_of_exec3 hi hh)

/-! ### The frame -/

/-- No instruction writes memory (rule R35). -/
theorem exec_mem (h : exec i s = .next t) : t.mem = s.mem := by
  rw [exec_eq] at h
  cases h
  exact edgesWith_induction (P := fun u => u.mem = s.mem) (fun u hu => (u.edgeWith_mem i).trans hu) _ rfl

/-- What OUT and the undefined opcodes leave in every phase, beside memory: ACC, B, the halt flag and the snapshot. -/
def State.beyondOutput (s : State) : Word8 × Word8 × Bool × Option Snapshot :=
  (s.acc, s.b, s.halted, s.snapshot)

theorem emitOps_keeps_beyondOutput (vs : Word8 → List Word8) : (emitOps vs).Keeps State.beyondOutput :=
  ⟨fun _ => rfl, fun _ => rfl, fun _ => rfl⟩

/-- From Exec1 on nothing is fetched, so OUT and the undefined opcodes then leave PC, MAR and IR too (rule R101). -/
theorem exec_emit_fetch_registers (hi : microOps i = emitOps vs)
    (hp : s.phase = .exec1 ∨ s.phase = .exec2 ∨ s.phase = .exec3) (h : exec i s = .next t) :
    t.pc = s.pc ∧ t.mar = s.mar ∧ t.ir = s.ir := by
  cases hh : s.halted with
  | true =>
    cases (exec_halted hh i).symm.trans h
    exact ⟨rfl, rfl, rfl⟩
  | false =>
    obtain ⟨-, -, -, hexec1, hlater⟩ := exec_emit_from_every_phase hi hh
    rcases hp with hp | hp
    · cases (hexec1 hp).symm.trans h
      exact ⟨rfl, rfl, rfl⟩
    · cases (hlater hp).symm.trans h
      exact ⟨rfl, rfl, rfl⟩

/-- The frame OUT and the undefined opcodes share. -/
theorem exec_emit_frame (hi : microOps i = emitOps vs) (h : exec i s = .next t) :
    t.acc = s.acc ∧ t.b = s.b ∧ t.halted = s.halted ∧ t.snapshot = s.snapshot := by
  have hkeep : t.beyondOutput = s.beyondOutput :=
    BlindToFetch.exec (fun _ _ _ _ _ => rfl) hi (emitOps_keeps_beyondOutput vs) h
  simpa [State.beyondOutput] using hkeep

/-- An undefined opcode leaves the trace (rule R109). -/
theorem exec_undefined_out {low : Nibble} (hi : i ∈ undefinedInstrs low) (h : exec i s = .next t) : t.out = s.out :=
  BlindToFetch.exec (φ := State.out) (fun _ _ _ _ _ => rfl) ((microOps_undefined hi).trans emitOps_nil)
    ⟨fun _ => rfl, fun _ => rfl, fun _ => rfl⟩ h

/-- HLT leaves the trace: the master reset does not reach it (rule R108). -/
theorem exec_hlt_out {low : Nibble} (h : exec (.hlt low) s = .next t) : t.out = s.out :=
  BlindToFetch.exec (φ := State.out) (m := hltOps low) (fun _ _ _ _ _ => rfl) rfl
    ⟨fun _ => rfl, fun _ => rfl, fun _ => rfl⟩ h

end Sys2Proof.Machine

namespace Sys2Proof

open Machine

/-- Settles O16: OUT is the emitting shape with ACC as what it appends. -/
theorem outEmitsTheAccumulator : Obligations.OutEmitsTheAccumulator := fun low _ hh =>
  exec_emit_from_every_phase (microOps_out low) hh

/-- Settles O18: the undefined opcodes are the emitting shape with nothing appended. -/
theorem undefinedOpcodesOnlyAdvance : Obligations.UndefinedOpcodesOnlyAdvance := by
  intro low s hh i hi
  have hops := microOps_undefined hi
  obtain ⟨haddress, hincrement, hfetch, hexec1, hlater⟩ := exec_emit_from_every_phase hops hh
  simp only [List.append_nil] at haddress hincrement hfetch hexec1
  exact ⟨haddress, hincrement, hfetch, fun hp => hp.elim hexec1 hlater⟩

/-- Settles O21: OUT and the undefined opcodes share the frame of the emitting shape; the undefined ones append
nothing, and the halt's master reset spares trace and memory. -/
theorem outputHaltFrame : Obligations.OutputHaltFrame := by
  intro low s t
  refine ⟨fun i hi h => ?_, fun h => ⟨exec_hlt_out h, fun a => by rw [exec_mem h]⟩⟩
  obtain ⟨vs, hops, hout⟩ : ∃ vs, microOps i = emitOps vs ∧ (i = .out low ∨ t.out = s.out) := by
    rcases List.mem_cons.1 hi with rfl | hi
    · exact ⟨_, microOps_out low, .inl rfl⟩
    · exact ⟨_, microOps_undefined hi, .inr (exec_undefined_out hi h)⟩
  obtain ⟨hacc, hb, hhalted, hsnapshot⟩ := exec_emit_frame hops h
  exact ⟨hacc, hb, hhalted, hsnapshot, fun a => by rw [exec_mem h], hout,
    fun hp => exec_emit_fetch_registers hops hp h⟩

end Sys2Proof
end

section
/-! PROOFS. The output trace along edges, steps and runs (spec/43_output_halt.md rules R100, R102). -/

namespace Sys2Proof.Machine

variable {s t : State}

/-! ### The strobe -/

theorem State.outStb_iff :
    s.ports.outStb = true ↔ s.phase = .exec1 ∧ s.opClass = .out ∧ s.halted = false := by
  simp [State.ports, and_assoc]

/-- A strobed edge is OUT's Exec1. -/
theorem State.tick_out_of_strobe (h : s.ports.outStb = true) : s.tick.out = s.out ++ [s.ports.outData] := by
  obtain ⟨hp, hc, hh⟩ := State.outStb_iff.1 h
  rw [(State.Edge.emit hh hp hc).tick_eq]
  rfl

/-- No other edge writes the trace. -/
theorem State.tick_out_of_no_strobe (h : ¬ s.ports.outStb = true) : s.tick.out = s.out := by
  cases hh : s.halted with
  | true => rw [(State.Edge.quiescent hh).tick_eq]
  | false =>
    obtain ⟨-, -, -, -, -, -, -, hwrites⟩ := s.edge_tick.writes
    by_contra hne
    obtain ⟨hp, hc⟩ := hwrites hne
    exact h (State.outStb_iff.2 ⟨hp, hc, hh⟩)

/-- The step of an OUT from its start appends ACC, once. -/
theorem step_out_of_outAtPc (hh : s.halted = false) (hp : s.phase = .address)
    (hc : OpClass.ofField (opField (s.mem.read s.pc)) = .out) (h : step s = .next t) : t.out = s.out ++ [s.acc] := by
  have hops : microOps s.currentInstr = emitOps fun v => [v] := by
    rw [State.currentInstr_of_address hp, microOps_decode, hc]
    rfl
  obtain ⟨haddress, -⟩ := exec_emit_from_every_phase hops hh
  cases (haddress hp).symm.trans h
  rfl

/-! ### The trace grows at its end -/

/-- An edge of an instruction leaves the trace or appends ACC. -/
theorem State.edgeWith_out_cases (i : Instr) (s : State) :
    (s.edgeWith (microOps i)).out = s.out ∨ (s.edgeWith (microOps i)).out = s.out ++ [s.acc] := by
  rcases s.edgeWith_cases i with ⟨-, h⟩ | ⟨-, h⟩
  · exact .inl (congrArg State.out h)
  · rcases h with ⟨-, h⟩ | ⟨-, h⟩ | ⟨-, h⟩ | ⟨-, ⟨_, h⟩ | h | h | h⟩ | ⟨-, h | h | h⟩ | ⟨-, ⟨_, h⟩ | h⟩ <;>
      rw [h] <;> simp

theorem State.edgeWith_extends_out (i : Instr) (s : State) : s.out <+: (s.edgeWith (microOps i)).out := by
  rcases s.edgeWith_out_cases i with h | h
  · rw [h]
  · exact ⟨[s.acc], h.symm⟩

theorem step_extends_out (h : step s = .next t) : s.out <+: t.out :=
  step_induction (P := fun u => s.out <+: u.out) (fun i u hu => hu.trans (u.edgeWith_extends_out i)) h
    (List.prefix_refl _)

theorem run_extends_out {n : Nat} (h : core.run n s = .next t) : s.out <+: t.out :=
  run_induction (P := fun u => s.out <+: u.out) (fun _ _ hstep hu => hu.trans (step_extends_out hstep)) h
    (List.prefix_refl _)

end Sys2Proof.Machine

namespace Sys2Proof

open Machine

/-- Settles O23: the strobed edges are the entries of OUT's Exec1 in the micro-operation table, and no other entry
writes the trace. -/
theorem outputEventsAreTheStrobedEdges : Obligations.OutputEventsAreTheStrobedEdges := by
  refine ⟨fun s => ⟨?_, rfl, State.outStb_iff⟩, fun _ _ => step_out_of_outAtPc⟩
  split
  next h => exact State.tick_out_of_strobe h
  next h => exact State.tick_out_of_no_strobe h

/-- Settles O24: every edge leaves the trace or appends to it, and a run is edges in a row. -/
theorem outputTraceOnlyGrows : Obligations.OutputTraceOnlyGrows := fun _ _ _ => run_extends_out

end Sys2Proof
end

section
/-! PROOFS. The four phases of a HLT (spec/43_output_halt.md rules R106, R107). -/

namespace Sys2Proof.Machine

variable {s : State}

/-- A core that is running after `n` edges was running after each of them, for a halted core stays halted. -/
theorem State.running_of_ticks {k n : Nat} (hk : k ≤ n) (h : (s.ticks n).halted = false) :
    (s.ticks k).halted = false := by
  cases hh : (s.ticks k).halted with
  | false => rfl
  | true =>
    obtain ⟨d, rfl⟩ := Nat.exists_eq_add_of_le hk
    rw [State.ticks_add, State.ticks_halted hh, hh] at h
    cases h

theorem State.ticks_one (hh : s.halted = false) (hp : s.phase = .address) :
    s.ticks 1 = (s.setMar s.pc).setPhase .increment :=
  (State.Edge.address hh hp).tick_eq

theorem State.ticks_two (hh : s.halted = false) (hp : s.phase = .address) :
    s.ticks 2 = ((s.setMar s.pc).setPc (s.pc + 1)).setPhase .fetch := by
  rw [State.ticks_add 1 1, State.ticks_one hh hp]
  exact (State.Edge.increment (s := (s.setMar s.pc).setPhase .increment) hh rfl).tick_eq

/-- The fourth edge of a HLT is its halt, from the fetched state. -/
theorem State.ticks_four_of_hlt (hh : s.halted = false) (hp : s.phase = .address) (hw : s.mem.HltAt s.pc) :
    s.ticks 4 = s.fetched.halt := by
  rw [State.ticks_add 3 1, State.ticks_three hh hp]
  exact (State.Edge.halt (s := s.fetched) hh rfl ((OpClass.ofField_eq_hlt_iff _).2 hw)).tick_eq

end Sys2Proof.Machine

namespace Sys2Proof

open Machine

/-- Settles O26: the three common phases lead to the fetched state, still running, and the fourth edge halts it. -/
theorem hltTakesFourPhases : Obligations.HltTakesFourPhases := by
  intro s hh hp hw
  have hthree := State.ticks_three hh hp
  have hrunning : (s.ticks 3).halted = false := by rw [hthree]; exact hh
  rw [State.ticks_one hh hp, State.ticks_two hh hp, State.ticks_four_of_hlt hh hp hw]
  refine ⟨rfl, rfl, ?_, fun k hk => State.running_of_ticks (Nat.le_of_lt_succ hk) hrunning, ?_, rfl, rfl⟩
  · rw [hthree]; rfl
  · rw [hthree]; rfl

end Sys2Proof
end

section
/-! PROOFS. The display of an emitted word (spec/43_output_halt.md rule R104). -/

namespace Sys2Proof.Machine

variable {v : Word8}

theorem display_of_msb_false (h : v.msb = false) : display v = decimalNumeral v.toNat := by
  simp [display, h]

/-- The magnitude of a negative word, the ALU's `0 - v`, is 256 minus the word: it is not 0, so nothing wraps. -/
theorem alu_zero_sub_toNat (h : v.msb = true) : (alu 0 v true).toNat = 256 - v.toNat := by
  obtain ⟨-, hsub, -⟩ := rippleChainIsModularArithmetic 0 v
  have hv : 2 ^ 7 ≤ v.toNat := BitVec.le_toNat_of_msb_true h
  have hzero : (0 : Word8).toNat = 0 := rfl
  rw [hsub, hzero]
  omega

theorem display_of_msb_true (h : v.msb = true) : display v = '-' :: decimalNumeral (256 - v.toNat) := by
  rw [display, if_pos h, alu_zero_sub_toNat h]

end Sys2Proof.Machine

namespace Sys2Proof

open Machine

/-- Settles O25: by the sign bit, and the corner values by running the display. -/
theorem displayIsTheSignedDecimal : Obligations.DisplayIsTheSignedDecimal :=
  ⟨fun _ => ⟨display_of_msb_false, display_of_msb_true⟩, by decide, by decide, by decide, by decide, by decide⟩

end Sys2Proof
end

section
/-! PROOFS. The reset input (spec/70_reset_and_hazards.md rules R124, R127, R129, R130). -/

namespace Sys2Proof.Machine

/-- Boot is itself an `rst` edge, and of the state before such an edge only memory is left: an `rst` edge in any state
is the boot of its memory. -/
theorem State.clockEdge_true_eq_boot (s : State) : s.clockEdge true = State.boot s.mem := rfl

end Sys2Proof.Machine

namespace Sys2Proof

open Machine

/-- Settles O2: with `rst` asserted the edge is `State.rst`, whatever the phase. -/
theorem rstEdgeClearsAllButMemory : Obligations.RstEdgeClearsAllButMemory := by
  intro s
  obtain ⟨hpc, hmar, hir, hacc, hb, hphase⟩ := s.cleared_rst
  exact ⟨hpc, hmar, hir, hacc, hb, hphase, s.rst_halted, s.rst_out, s.rst_mem⟩

/-- Settles O3: the two runs start in the same state. -/
theorem rstStartsTheSameRunAgain : Obligations.RstStartsTheSameRunAgain := fun s n =>
  congrArg (core.run n) s.clockEdge_true_eq_boot

end Sys2Proof
end

section
/-! PROOFS. The six phases of every instruction but HLT (spec/70_reset_and_hazards.md rule R135; spec/41_sequencer.md
rule R81). -/

namespace Sys2Proof.Machine

variable {s t : State} {m : Memory} {a : Addr4}

/-- An edge that leaves the core running moves on to the next phase. -/
theorem State.Edge.phase_eq_next (h : s.Edge t) (ht : t.halted = false) : t.phase = s.phase.next := by
  cases h with
  | quiescent hh => rw [hh] at ht; cases ht
  | halt => cases ht
  | address _ hp | increment _ hp | fetch _ hp | operandToMar _ hp | emit _ hp | idle1 _ hp | loadAcc _ hp
  | loadB _ hp | idle2 _ hp | addToAcc _ hp | subFromAcc _ hp | idle3 _ hp => rw [hp]; rfl

/-- As long as the core runs, its phase rotates once an edge. -/
theorem State.ticks_phase {n : Nat} (h : (s.ticks n).halted = false) : (s.ticks n).phase = Phase.next^[n] s.phase := by
  induction n generalizing s with
  | zero => rfl
  | succ n ih =>
    have hfirst : s.tick.halted = false := State.running_of_ticks (s := s) (Nat.le_add_left 1 n) h
    rw [State.ticks_succ, ih h, s.edge_tick.phase_eq_next hfirst, Function.iterate_succ_apply]

/-- A running core at the start of the instruction at address `a` of memory `m`. -/
structure State.StartsAt (s : State) (m : Memory) (a : Addr4) : Prop where
  mem : s.mem = m
  running : s.halted = false
  phase : s.phase = .address
  pc : s.pc = a

/-- From the start of an instruction a step is six edges, also where a HLT halts within them. -/
theorem step_eq_ticks_six (hp : s.phase = .address) : step s = .next (s.ticks 6) := by
  rw [stepIsTheRemainingClockEdges s, hp, Phase.edgesLeft]

/-- Six edges of an instruction that is no HLT lead to the start of the instruction at the next address. -/
theorem State.StartsAt.ticks_six (h : s.StartsAt m a) (hw : ¬ m.HltAt a) : (s.ticks 6).StartsAt m (a + 1) := by
  obtain ⟨rfl, hh, hp, rfl⟩ := h
  obtain ⟨t, hstep, hphase, hhalted, hpc⟩ := onlyHltLeavesTheRun s hh hp
  obtain rfl : s.ticks 6 = t := Host.Outcome.next.inj ((step_eq_ticks_six hp).symm.trans hstep)
  have hrun : (s.ticks 6).halted = false := Bool.eq_false_iff.2 (hw ∘ hhalted.1)
  exact ⟨step_mem hstep, hrun, hphase, hpc hrun⟩

end Sys2Proof.Machine

namespace Sys2Proof

open Machine

/-- Settles O39: the core runs for six edges, so its phase rotates with them, and the rotation has period six. -/
theorem sixPhasesUnlessHlt : Obligations.SixPhasesUnlessHlt := by
  intro s hh hp hw
  have hsix := State.StartsAt.ticks_six ⟨rfl, hh, hp, rfl⟩ hw
  refine ⟨fun k h1 h5 => ?_, hsix.phase, hsix.running⟩
  have hrun : (s.ticks k).halted = false := State.running_of_ticks (h5.trans (Nat.le_succ 5)) hsix.running
  obtain ⟨-, hnotback, -⟩ := phaseRotationHasPeriodSix.2 .address
  rw [State.ticks_phase hrun, hp]
  exact ⟨hnotback k h1 h5, hrun⟩

end Sys2Proof
end

section
/-! PROOFS. The halting criterion (spec/70_reset_and_hazards.md rule R137): a run from boot is six edges an instruction
through the addresses in order, up to the first HLT. -/

namespace Sys2Proof.Machine

variable {s : State} {m : Memory} {n : Nat}

/-- The start of an instruction, and a halted core, come back to phase Address after six edges. -/
theorem State.ticks_six_phase (hp : s.phase = .address) : (s.ticks 6).phase = .address := by
  cases hh : s.halted with
  | true => rw [State.ticks_halted hh, hp]
  | false =>
    obtain ⟨t, hstep, hphase, -⟩ := onlyHltLeavesTheRun s hh hp
    rwa [Host.Outcome.next.inj ((step_eq_ticks_six hp).symm.trans hstep)]

/-- From the start of an instruction every step of a run is six edges. -/
theorem run_eq_ticks (hp : s.phase = .address) (n : Nat) : core.run n s = .next (s.ticks (6 * n)) := by
  induction n generalizing s with
  | zero => rfl
  | succ n ih =>
    rw [run_succ_of_step (step_eq_ticks_six hp), ih (State.ticks_six_phase hp), Nat.mul_succ, Nat.add_comm,
      State.ticks_add]

/-- Where none of the first `n` addresses, counted modulo 16, holds a HLT, the run from boot has come to address `n`
after `n` instructions. -/
theorem State.boot_startsAt (hw : ∀ k, k < n → ¬ m.HltAt (BitVec.ofNat 4 k)) :
    ((State.boot m).ticks (6 * n)).StartsAt m (BitVec.ofNat 4 n) := by
  induction n with
  | zero => exact ⟨rfl, rfl, rfl, rfl⟩
  | succ n ih =>
    have hstart := ih fun k hk => hw k (Nat.lt_succ_of_lt hk)
    rw [Nat.mul_succ, State.ticks_add, BitVec.ofNat_add]
    exact hstart.ticks_six (hw n n.lt_succ_self)

/-- That start, reached by the run of `n` steps. -/
theorem run_boot (hw : ∀ k, k < n → ¬ m.HltAt (BitVec.ofNat 4 k)) :
    ∃ t : State, core.run n (State.boot m) = .next t ∧ t.halted = false ∧ t.phase = .address ∧
      t.pc = BitVec.ofNat 4 n :=
  have h := State.boot_startsAt hw
  ⟨_, run_eq_ticks rfl n, h.running, h.phase, h.pc⟩

/-- A HLT that starts is halted, with the fetched registers as its snapshot, at its fourth edge and after it. -/
theorem State.StartsAt.ticks_of_hlt {a : Addr4} (h : s.StartsAt m a) (hw : m.HltAt a) {k : Nat} (hk : 4 ≤ k) :
    s.ticks k = s.fetched.halt := by
  obtain ⟨rfl, hh, hp, rfl⟩ := h
  obtain ⟨d, rfl⟩ := Nat.exists_eq_add_of_le hk
  rw [State.ticks_add, State.ticks_four_of_hlt hh hp hw]
  exact State.ticks_halted rfl d

end Sys2Proof.Machine

namespace Sys2Proof

open Machine

/-- Settles O38: the run from boot comes to the start of each instruction in turn; a first HLT there halts at its
fourth edge, and with no HLT there is always a later start, at which the core still runs. -/
theorem haltingCriterion : Obligations.HaltingCriterion := by
  refine fun m => ⟨fun h _ hhlt hfirst => ?_, fun hnone => ?_⟩
  · have hstart := State.boot_startsAt hfirst
    have hend {k : Nat} (hk : 4 ≤ k) :
        (State.boot m).ticks (6 * h + k) = ((State.boot m).ticks (6 * h)).fetched.halt := by
      rw [State.ticks_add, hstart.ticks_of_hlt hhlt hk]
    refine ⟨fun n hn => run_boot fun k hk => hfirst k (hk.trans_le hn),
      ⟨_, run_eq_ticks rfl (h + 1), ?_⟩, fun k hk => ?_, ?_⟩
    · rw [Nat.mul_succ, hend (by decide)]
      refine ⟨rfl, _, rfl, hstart.pc, ?_⟩
      rw [BitVec.ofNat_add, ← hstart.pc]
      rfl
    · have hthree : ((State.boot m).ticks (6 * h + 3)).halted = false := by
        rw [State.ticks_add, State.ticks_three hstart.running hstart.phase]
        exact hstart.running
      exact State.running_of_ticks (Nat.le_of_lt_succ hk) hthree
    · rw [hend le_rfl, State.halt_halted]
  · have hstart (n : Nat) := State.boot_startsAt (m := m) (n := n) fun k _ => hnone _
    refine ⟨fun k => State.running_of_ticks (Nat.le_mul_of_pos_left k (by decide)) (hstart k).running,
      fun n => run_boot fun k _ => hnone _, fun n => ?_⟩
    have hpass : 96 * n = 6 * (16 * n) := by omega
    have hzero : BitVec.ofNat 4 (16 * n) = 0 := by rw [BitVec.ofNat_mul]; exact BitVec.zero_mul
    rw [hpass]
    exact ⟨(hstart _).pc.trans hzero, (hstart _).phase⟩

end Sys2Proof
end
